-- ==== Sys2Proof/Word.lean ====
section
/-! DEFINITION. The words of the bech32 datapath block: one abbreviation per width the spec names. -/

namespace Sys2Proof

/-- An 8-bit value: a payload byte, a character code, an operand, an output field (rules R33, R42, R44). -/
abbrev Byte := BitVec 8

/-- A 5-bit symbol, 0 to 31 (00_scope.md section 6, rule R21). -/
abbrev Sym := BitVec 5

/-- A 30-bit accumulator value or parameter (rules R5, R13). -/
abbrev Acc := BitVec 30

/-- A 16-bit command word (rule R40). -/
abbrev CmdWord := BitVec 16

end Sys2Proof
end

