-- ==== Sys2Proof/Syntax.lean ====
section
/-! DEFINITION. The commands of BDP-1: one constructor per row of spec/opcode_table.json (rule R43). -/

namespace Sys2Proof

/-- The five command targets: the four units and the stateless `SYS` (rules R2, R41). -/
inductive Target where
  | sys | r85 | r58 | bch | map
  deriving DecidableEq, Repr

/-- A command (rule R43). The operand is `w[7:0]`, all eight bits (rule R44): a value outside the legal range of a
command is still a command, which its rule refuses by value. -/
inductive Instr where
  /-- `SYS.NOP` (R88) -/
  | sysNop
  /-- `SYS.RSTALL` (R89) -/
  | sysRstall
  /-- `R85.CLR` (R54) -/
  | r85Clr
  /-- `R85.PUSH b` (R55) -/
  | r85Push (b : Byte)
  /-- `R85.FLUSH` (R56) -/
  | r85Flush
  /-- `R85.ST` (R57) -/
  | r85St
  /-- `R58.CLR` (R61) -/
  | r58Clr
  /-- `R58.PUSH v` (R62) -/
  | r58Push (v : Byte)
  /-- `R58.FIN` (R63) -/
  | r58Fin
  /-- `R58.ST` (R64) -/
  | r58St
  /-- `BCH.CLR` (R71) -/
  | bchClr
  /-- `BCH.HRPH c` (R72) -/
  | bchHrph (c : Byte)
  /-- `BCH.HSEP` (R73) -/
  | bchHsep
  /-- `BCH.HRPL c` (R74) -/
  | bchHrpl (c : Byte)
  /-- `BCH.SYM v` (R75) -/
  | bchSym (v : Byte)
  /-- `BCH.FIN` (R76) -/
  | bchFin
  /-- `BCH.CKSUM i` (R77) -/
  | bchCksum (i : Byte)
  /-- `BCH.VERIFY` (R78) -/
  | bchVerify
  /-- `BCH.ST` (R79) -/
  | bchSt
  /-- `MAP.S2C v` (R84) -/
  | mapS2c (v : Byte)
  /-- `MAP.C2S c` (R86) -/
  | mapC2s (c : Byte)
  deriving DecidableEq, Repr

/-- The target a command addresses (rules R41, R43). -/
def Instr.target : Instr → Target
  | .sysNop | .sysRstall => .sys
  | .r85Clr | .r85Push _ | .r85Flush | .r85St => .r85
  | .r58Clr | .r58Push _ | .r58Fin | .r58St => .r58
  | .bchClr | .bchHrph _ | .bchHsep | .bchHrpl _ | .bchSym _ | .bchFin | .bchCksum _ | .bchVerify | .bchSt => .bch
  | .mapS2c _ | .mapC2s _ => .map

end Sys2Proof
end

