-- ==== Sys2Proof/WellFormed.lean ====
section
/-! DEFINITION. The check on a command's operand. Every term of `Instr` has an encoding, because the operand's type is
exactly the eight bits of `w[7:0]` (rule R44); what is left to check is the legal range of the operand's value. -/

namespace Sys2Proof

/-- The operand has a legal value (rule R43, column operand; rule R44): a symbol is at most 31, a checksum index at most
5. A command outside its range is no reserved encoding: it decodes, and its rule raises `E_RANGE` (rule R44). -/
def Instr.inRange : Instr → Bool
  | .r58Push v => v.toNat ≤ 31
  | .bchSym v => v.toNat ≤ 31
  | .mapS2c v => v.toNat ≤ 31
  | .bchCksum i => i.toNat ≤ 5
  | .sysNop | .sysRstall => true
  | .r85Clr | .r85Push _ | .r85Flush | .r85St => true
  | .r58Clr | .r58Fin | .r58St => true
  | .bchClr | .bchHrph _ | .bchHsep | .bchHrpl _ | .bchFin | .bchVerify | .bchSt => true
  | .mapC2s _ => true

end Sys2Proof
end

