-- ==== Sys2Proof/Decode.lean ====
section
/-! DEFINITION. Decoding a command word (rules R40, R41, R43, R45 to R48) and encoding a command. -/

namespace Sys2Proof

/-- Why a word is reserved: the three kinds rule R46 lists. -/
inductive DecodeError where
  /-- `unit` is 5 to 15 -/
  | reservedUnit
  /-- the `unit`/`op` pair is not listed in rule R43 -/
  | reservedOp
  /-- a command without operand, with `w[7:0]` not 0 (rule R45) -/
  | operandNotZero
  deriving DecidableEq, Repr

/-- `w[15:12]` (rule R40). -/
def unitField (w : CmdWord) : BitVec 4 := w.extractLsb' 12 4

/-- `w[11:8]` (rule R40). -/
def opField (w : CmdWord) : BitVec 4 := w.extractLsb' 8 4

/-- `w[7:0]` (rule R40). -/
def operandField (w : CmdWord) : Byte := w.extractLsb' 0 8

/-- A row of rule R43 that takes no operand: `w[7:0]` must be 0 (rule R45). -/
def noOperand (x : Byte) (i : Instr) : Except DecodeError Instr :=
  if x = 0 then .ok i else .error .operandNotZero

/-- The rows of unit 0, `SYS`. -/
def decodeSys (op : Nat) (x : Byte) : Except DecodeError Instr :=
  match op with
  | 0 => noOperand x .sysNop
  | 1 => noOperand x .sysRstall
  | _ => .error .reservedOp

/-- The rows of unit 1, `R85`. -/
def decodeR85 (op : Nat) (x : Byte) : Except DecodeError Instr :=
  match op with
  | 0 => noOperand x .r85Clr
  | 1 => .ok (.r85Push x)
  | 2 => noOperand x .r85Flush
  | 15 => noOperand x .r85St
  | _ => .error .reservedOp

/-- The rows of unit 2, `R58`. -/
def decodeR58 (op : Nat) (x : Byte) : Except DecodeError Instr :=
  match op with
  | 0 => noOperand x .r58Clr
  | 1 => .ok (.r58Push x)
  | 2 => noOperand x .r58Fin
  | 15 => noOperand x .r58St
  | _ => .error .reservedOp

/-- The rows of unit 3, `BCH`. -/
def decodeBch (op : Nat) (x : Byte) : Except DecodeError Instr :=
  match op with
  | 0 => noOperand x .bchClr
  | 1 => .ok (.bchHrph x)
  | 2 => noOperand x .bchHsep
  | 3 => .ok (.bchHrpl x)
  | 4 => .ok (.bchSym x)
  | 5 => noOperand x .bchFin
  | 6 => .ok (.bchCksum x)
  | 7 => noOperand x .bchVerify
  | 15 => noOperand x .bchSt
  | _ => .error .reservedOp

/-- The rows of unit 4, `MAP`. -/
def decodeMap (op : Nat) (x : Byte) : Except DecodeError Instr :=
  match op with
  | 1 => .ok (.mapS2c x)
  | 2 => .ok (.mapC2s x)
  | _ => .error .reservedOp

/-- Decoding (rule R47): a total function of the word alone, to a command or to a named reason why the word is reserved
(rule R46). -/
def decode (w : CmdWord) : Except DecodeError Instr :=
  match (unitField w).toNat with
  | 0 => decodeSys (opField w).toNat (operandField w)
  | 1 => decodeR85 (opField w).toNat (operandField w)
  | 2 => decodeR58 (opField w).toNat (operandField w)
  | 3 => decodeBch (opField w).toNat (operandField w)
  | 4 => decodeMap (opField w).toNat (operandField w)
  | _ => .error .reservedUnit

/-- The word `unit[15:12] op[11:8] operand[7:0]` (rule R40). -/
def cmd16 (unit op : BitVec 4) (operand : Byte) : CmdWord := unit ++ op ++ operand

/-- The `unit` code of a target (rule R41). -/
def Target.unitCode : Target → BitVec 4
  | .sys => 0
  | .r85 => 1
  | .r58 => 2
  | .bch => 3
  | .map => 4

/-- The `op` code of a command (rule R43). -/
def Instr.opCode : Instr → BitVec 4
  | .sysNop => 0
  | .sysRstall => 1
  | .r85Clr => 0
  | .r85Push _ => 1
  | .r85Flush => 2
  | .r85St => 15
  | .r58Clr => 0
  | .r58Push _ => 1
  | .r58Fin => 2
  | .r58St => 15
  | .bchClr => 0
  | .bchHrph _ => 1
  | .bchHsep => 2
  | .bchHrpl _ => 3
  | .bchSym _ => 4
  | .bchFin => 5
  | .bchCksum _ => 6
  | .bchVerify => 7
  | .bchSt => 15
  | .mapS2c _ => 1
  | .mapC2s _ => 2

/-- The operand of the eight commands that take one, `none` for the others (rules R43, R49). -/
def Instr.operand? : Instr → Option Byte
  | .r85Push b => some b
  | .r58Push v => some v
  | .bchHrph c => some c
  | .bchHrpl c => some c
  | .bchSym v => some v
  | .bchCksum i => some i
  | .mapS2c v => some v
  | .mapC2s c => some c
  | .sysNop | .sysRstall => none
  | .r85Clr | .r85Flush | .r85St => none
  | .r58Clr | .r58Fin | .r58St => none
  | .bchClr | .bchHsep | .bchFin | .bchVerify | .bchSt => none

/-- The word of a command (rules R40, R43): a command without operand has `w[7:0] = 0` (rule R45). -/
def encode (i : Instr) : CmdWord :=
  cmd16 i.target.unitCode i.opCode (i.operand?.getD 0)

/-- `match` of a command's row (rule R43, column match). -/
def Instr.rowMatch : Instr → CmdWord
  | .sysNop => 0x0000
  | .sysRstall => 0x0100
  | .r85Clr => 0x1000
  | .r85Push _ => 0x1100
  | .r85Flush => 0x1200
  | .r85St => 0x1F00
  | .r58Clr => 0x2000
  | .r58Push _ => 0x2100
  | .r58Fin => 0x2200
  | .r58St => 0x2F00
  | .bchClr => 0x3000
  | .bchHrph _ => 0x3100
  | .bchHsep => 0x3200
  | .bchHrpl _ => 0x3300
  | .bchSym _ => 0x3400
  | .bchFin => 0x3500
  | .bchCksum _ => 0x3600
  | .bchVerify => 0x3700
  | .bchSt => 0x3F00
  | .mapS2c _ => 0x4100
  | .mapC2s _ => 0x4200

/-- `mask` of a command's row (rule R43, column mask). -/
def Instr.rowMask : Instr → CmdWord
  | .r85Push _ | .r58Push _ | .bchHrph _ | .bchHrpl _ | .bchSym _ | .bchCksum _ | .mapS2c _ | .mapC2s _ => 0xFF00
  | .sysNop | .sysRstall => 0xFFFF
  | .r85Clr | .r85Flush | .r85St => 0xFFFF
  | .r58Clr | .r58Fin | .r58St => 0xFFFF
  | .bchClr | .bchHsep | .bchFin | .bchVerify | .bchSt => 0xFFFF

/-- A table row's word of `nbits` bits, given to the decoder. There is one command length, 16 bits (rule R48), so the
bits above `nbits` are 0 and a longer word is no command (log 10). -/
def decodeTableWord (nbits w : Nat) : Option Instr :=
  if nbits ≤ 16 then (decode (BitVec.ofNat 16 (w % 2 ^ nbits))).toOption else none

end Sys2Proof
end

