-- ==== Sys2Proof/Config.lean ====
section
/-! DEFINITION. The parameters of the block (rule R5) and the one free value of the model.
Neither constant below has a body, so nothing can be proved about its value. -/

namespace Sys2Proof

/-- The configuration record `Cfg` of rule R5: the open parameters of the block. Each is an unsigned integer below
2^30, which the width says, and nothing else is assumed of it. The fixed parameters of R5 (8, 5, padding, six checksum
symbols, 30 bits, the charset) are written where they are used. -/
structure Cfg where
  /-- `GEN[0]` -/
  gen0 : Acc
  /-- `GEN[1]` -/
  gen1 : Acc
  /-- `GEN[2]` -/
  gen2 : Acc
  /-- `GEN[3]` -/
  gen3 : Acc
  /-- `GEN[4]` -/
  gen4 : Acc
  /-- `CHK_INIT`, the accumulator's starting value -/
  chkInit : Acc
  /-- `FINAL_CONST` -/
  finalConst : Acc
  deriving DecidableEq, Repr, Inhabited

/-- The parameters of the block that `exec`, `step` and `State.reset` describe. OPEN in the spec (rule R5,
91_not_in_source.md N1 to N3), so it has no body. DESIGN CHOICE, log 1, safe. -/
opaque Config.cfg : Cfg

/-- The symbol `R85.FLUSH` returns when `R85.bits` is 6 or 7, as a function of `R85.rem` and `R85.bits`. Rule R56 then
shifts by the negative amount `5 - R85.bits`, which no rule defines. No run reaches such a state (rule R14 (a)).
A free value: DESIGN CHOICE, log 6, safe. -/
opaque Config.flushBeyond : BitVec 4 → BitVec 3 → Sym

end Sys2Proof
end

