-- ==== Sys2Proof/Machine/Accumulator.lean ====
section
/-! DEFINITION. The checksum accumulator: one absorb step (rule R67), a sequence of them (rule R69), and the extraction
of a checksum symbol (rules R29, R77). -/

namespace Sys2Proof.Machine

/-- The exclusive-or of the generator constants that the five shifted-out bits select: bit `i` of `top` selects `GEN[i]`
(rule R67; log 8). -/
def genMix (cfg : Cfg) (top : BitVec 5) : Acc :=
  (if top.getLsbD 0 then cfg.gen0 else 0) ^^^
  (if top.getLsbD 1 then cfg.gen1 else 0) ^^^
  (if top.getLsbD 2 then cfg.gen2 else 0) ^^^
  (if top.getLsbD 3 then cfg.gen3 else 0) ^^^
  (if top.getLsbD 4 then cfg.gen4 else 0)

/-- `absorb(c, v)` (rule R67): `c[24:0]` moves up by 5, the symbol is folded in at bits 4 to 0, and the constants
selected by `c[29:25]` are exclusive-or'ed in. -/
def absorb (cfg : Cfg) (c : Acc) (v : Sym) : Acc :=
  let top : BitVec 5 := c.extractLsb' 25 5
  let d : Acc := ((c.extractLsb' 0 25).setWidth 30 <<< 5) ^^^ v.setWidth 30
  d ^^^ genMix cfg top

/-- A sequence of absorb steps from the accumulator value `c`. -/
def absorbAll (cfg : Cfg) (c : Acc) (s : List Sym) : Acc := s.foldl (absorb cfg) c

/-- The six zero placeholder symbols (rules R5, R69, R76). -/
def sixZeros : List Sym := [0, 0, 0, 0, 0, 0]

/-- Checksum symbol `i` of `p = chk ^ FINAL_CONST`: `(p >> (5 * (5 - i))) & 31 = p[29-5i : 25-5i]` (rules R29, R77). -/
def cksumSymbol (p : Acc) (i : Fin 6) : Sym := p.extractLsb' (5 * (5 - i.val)) 5

end Sys2Proof.Machine
end

