-- ==== Sys2Proof/Machine/State.lean ====
section
/-! DEFINITION. The state of the block (rules R11, R13), the response record (R42), the status codes (R91), what the
host supplies (R36, R101), and the state after reset (R23). -/

namespace Sys2Proof.Machine

/-- The status of a response (rule R91). The codes 8 to 15 are never produced and have no constructor (log 7). -/
inductive Status where
  /-- 0, the command executed -/
  | ok
  /-- 1, the word is a reserved encoding -/
  | eIllegal
  /-- 2, the addressed unit is halted and the command is not `CLR` or `ST` -/
  | eHalted
  /-- 3, a `BCH` command in a phase that does not accept it -/
  | eSeq
  /-- 4, an operand exceeds its legal range -/
  | eRange
  /-- 5, `R58.FIN` found leftover bits that are not all zero -/
  | ePadNonzero
  /-- 6, `R58.FIN` found 5, 6 or 7 leftover bits, all zero -/
  | ePadExcess
  /-- 7, `MAP.C2S` was given a code outside the charset -/
  | eChar
  deriving DecidableEq, Repr

/-- The response record (rule R42). -/
structure Response where
  status : Status
  /-- how many of `out0`, `out1` carry data -/
  count : BitVec 2
  out0 : Byte
  out1 : Byte
  deriving DecidableEq, Repr

/-- `BCH.phase`, where the engine is in a call (rule R18). -/
inductive Phase where
  /-- 0, the high parts of the HRP characters are being absorbed -/
  | hrpHi
  /-- 1, the separator has been absorbed; the low parts are being absorbed -/
  | hrpLo
  /-- 2, at least one data symbol has been absorbed -/
  | data
  /-- 3, the six zero symbols have been absorbed; the checksum can be read -/
  | done
  deriving DecidableEq, Repr

/-- The units that have an `err` flag and so can be halted (rules R17, R94). -/
inductive HaltingUnit where
  | r58 | bch
  deriving DecidableEq, Repr

/-- The registers of `R85` (rule R13). -/
structure R85Regs where
  /-- the leftover bits, right-justified: bit `bits-1` entered first -/
  rem : BitVec 4
  /-- how many leftover bits `rem` holds -/
  bits : BitVec 3
  deriving DecidableEq, Repr

/-- The registers of `R58` (rule R13). -/
structure R58Regs where
  /-- the leftover bits, right-justified -/
  rem : BitVec 7
  /-- how many leftover bits `rem` holds -/
  bits : BitVec 3
  /-- true: the unit is halted -/
  err : Bool
  /-- status code of the error that halted the unit -/
  code : BitVec 4
  deriving DecidableEq, Repr

/-- The registers of `BCH` (rule R13). -/
structure BchRegs where
  /-- the 30-bit accumulator -/
  chk : Acc
  phase : Phase
  /-- true: the unit is halted -/
  err : Bool
  /-- status code of the error that halted the unit -/
  code : BitVec 4
  deriving DecidableEq, Repr

/-- What the host supplies (rules R2, R36, R101): one command word, or the hardware reset (log 4). -/
inductive HostInput where
  | command (word : CmdWord)
  | hardwareReset
  deriving DecidableEq, Repr

/-- The state of the model. `r85`, `r58`, `bch` are the ten registers of rule R13 and nothing else is state of the
block; the parameters are an argument of the step function and not state (rules R5, R11). `inputs` and `responses` are
the model's own (log 2, 3): the step function takes the command from the one and puts the response into the other. -/
structure State where
  r85 : R85Regs
  r58 : R58Regs
  bch : BchRegs
  /-- supplied and not yet taken, oldest first -/
  inputs : List HostInput
  /-- returned so far, oldest first -/
  responses : List Response
  deriving DecidableEq, Repr

/-- The reasons to stop with a fault: none. The block has no traps (rules R94, R98), every command answers (rule R110),
and no behaviour is stuck or unpredictable (93_implementation_defined.md, part 1). An error of a command is a status in
its response, so a next state. -/
inductive Fault where
  deriving DecidableEq, Repr

/-- The reasons to give no meaning. -/
inductive Refusal where
  /-- Raised by the arm of `exec` of a command that has no meaning yet; no arm raises it. Safe: a run stops where the
  hardware goes on. -/
  | notModelled (mnemonic : String)
  deriving DecidableEq, Repr

/-- `R85` in the cleared state (rules R13, R101). -/
def R85Regs.cleared : R85Regs := { rem := 0, bits := 0 }

/-- `R58` in the cleared state (rules R13, R101). -/
def R58Regs.cleared : R58Regs := { rem := 0, bits := 0, err := false, code := 0 }

/-- `BCH` in the cleared state (rules R13, R101): the accumulator starts at the parameter `CHK_INIT`. -/
def BchRegs.cleared (cfg : Cfg) : BchRegs := { chk := cfg.chkInit, phase := .hrpHi, err := false, code := 0 }

/-- The block with parameters `cfg` after the hardware reset (rules R23, R101): every register has its reset value, no
command has been supplied, no response returned. -/
def State.resetFor (cfg : Cfg) : State :=
  { r85 := .cleared, r58 := .cleared, bch := .cleared cfg, inputs := [], responses := [] }

/-- The machine right after reset, its parameters open (log 1). -/
def State.reset : State := State.resetFor Config.cfg

end Sys2Proof.Machine
end

