-- ==== Sys2Proof/Machine/Flags.lean ====
section
/-! DEFINITION. Status and phase codes, and the status views the `ST` commands return (rules R18, R19, R91). The block
has no condition codes (rule R17): its two flags are `R58.err` and `BCH.err`, written in Machine/Ops.lean. -/

namespace Sys2Proof.Machine

/-- The code of a status (rule R91). -/
def Status.code : Status → BitVec 4
  | .ok => 0
  | .eIllegal => 1
  | .eHalted => 2
  | .eSeq => 3
  | .eRange => 4
  | .ePadNonzero => 5
  | .ePadExcess => 6
  | .eChar => 7

/-- The encoding of `BCH.phase` (rule R18). -/
def Phase.code : Phase → BitVec 2
  | .hrpHi => 0
  | .hrpLo => 1
  | .data => 2
  | .done => 3

/-- `out0` of a status view: `{err, code[3:0], low[2:0]}` (rule R19). -/
def statusByte (err : Bool) (code : BitVec 4) (low : BitVec 3) : Byte :=
  BitVec.ofBool err ++ code ++ low

/-- `out0` of `R85.ST` (rules R19, R57): `R85` has no flag and no code. -/
def R85Regs.view0 (r : R85Regs) : Byte := statusByte false 0 r.bits

/-- `out1` of `R85.ST`: `zext_8(R85.rem)`. -/
def R85Regs.view1 (r : R85Regs) : Byte := r.rem.setWidth 8

/-- `out0` of `R58.ST` (rules R19, R64). -/
def R58Regs.view0 (r : R58Regs) : Byte := statusByte r.err r.code r.bits

/-- `out1` of `R58.ST`: `zext_8(R58.rem)`. -/
def R58Regs.view1 (r : R58Regs) : Byte := r.rem.setWidth 8

/-- `out0` of `BCH.ST` (rules R19, R79): the low field is `{0, BCH.phase}`. `out1` is 0. -/
def BchRegs.view0 (r : BchRegs) : Byte := statusByte r.err r.code (r.phase.code.setWidth 3)

end Sys2Proof.Machine
end

