-- ==== Sys2Proof/Machine/Operands.lean ====
section
/-! DEFINITION. What the commands make of the operand `w[7:0]` (rules R28, R33, R44), and the `CHARSET` table with its
inverse (rules R25, R85). -/

namespace Sys2Proof.Machine

/-- The operand as a symbol: `v[4:0]` when the value is at most 31, refused otherwise and never truncated (rules R44,
R62, R75, R84). -/
def symbol? (v : Byte) : Option Sym :=
  if v.toNat ≤ 31 then some (v.setWidth 5) else none

/-- The operand as a checksum symbol index, 0 to 5 (rule R77). -/
def cksumIndex? (i : Byte) : Option (Fin 6) :=
  if h : i.toNat < 6 then some ⟨i.toNat, h⟩ else none

/-- The high part of an HRP character, `zext_5(c[7:5])` (rules R28, R72). -/
def hrpHigh (c : Byte) : Sym := (c.extractLsb' 5 3).setWidth 5

/-- The low part of an HRP character, `c[4:0]` (rules R28, R74). -/
def hrpLow (c : Byte) : Sym := c.extractLsb' 0 5

/-- The `CHARSET` table (rule R25): the ASCII codes of `qpzry9x8gf2tvdw0s3jn54khce6mua7l`, index = symbol value. -/
def charset : List Byte :=
  [0x71, 0x70, 0x7a, 0x72, 0x79, 0x39, 0x78, 0x38] ++
  [0x67, 0x66, 0x32, 0x74, 0x76, 0x64, 0x77, 0x30] ++
  [0x73, 0x33, 0x6a, 0x6e, 0x35, 0x34, 0x6b, 0x68] ++
  [0x63, 0x65, 0x36, 0x6d, 0x75, 0x61, 0x37, 0x6c]

/-- `CHARSET[v]` (rule R84). -/
def charOf (v : Sym) : Byte := charset.getD v.toNat 0

/-- `CHARSET_INV(c)` (rule R85): the index of `c` in the table, if it is there. -/
def charsetInv (c : Byte) : Option Sym :=
  (charset.findIdx? (fun d => d == c)).map (BitVec.ofNat 5)

end Sys2Proof.Machine
end

