-- ==== Sys2Proof/Machine/Regroup.lean ====
section
/-! DEFINITION. The regroupers' data path: what one push, flush or final check does to a unit's registers (rules R55,
R56, R62, R63). Arithmetic is on unbounded unsigned integers, as in the spec's pseudocode (rules R9, R10); a value is cut
to its register's width when it is stored, which changes nothing in a state that keeps rule R14 (log 5). -/

namespace Sys2Proof.Machine

/-- The low `m` bits of `t`, the spec's `t & (2^m - 1)`. -/
def lowBits (t m : Nat) : Nat := t &&& (2 ^ m - 1)

/-- A response `OK` with no output, the spec's `ok()` (rule R9). -/
def Response.ok : Response := { status := .ok, count := 0, out0 := 0, out1 := 0 }

/-- A response `OK` with one output, `ok1(a)` (rule R9). -/
def Response.ok1 (a : Byte) : Response := { status := .ok, count := 1, out0 := a, out1 := 0 }

/-- A response `OK` with two outputs, `ok2(a, b)` (rule R9); `a` is the earlier one (rule R30). -/
def Response.ok2 (a b : Byte) : Response := { status := .ok, count := 2, out0 := a, out1 := b }

/-- The response of a failed command: `respond(E_X, 0, 0, 0)` (rules R9, R91). -/
def Response.error (e : Status) : Response := { status := e, count := 0, out0 := 0, out1 := 0 }

/-- `R85.PUSH b` on the registers of `R85` (rule R55): `t` is `{rem, b}`, its low `n` bits are significant. -/
def push85 (r : R85Regs) (b : Byte) : R85Regs × Response :=
  let t := r.rem.toNat * 256 + b.toNat
  let n := r.bits.toNat + 8
  if n ≥ 10 then
    let s0 := (t >>> (n - 5)) &&& 31
    let s1 := (t >>> (n - 10)) &&& 31
    let m := n - 10
    ({ rem := .ofNat 4 (lowBits t m), bits := .ofNat 3 m }, .ok2 (.ofNat 8 s0) (.ofNat 8 s1))
  else
    let s0 := (t >>> (n - 5)) &&& 31
    let m := n - 5
    ({ rem := .ofNat 4 (lowBits t m), bits := .ofNat 3 m }, .ok1 (.ofNat 8 s0))

/-- The padded last symbol (rules R27, R56): the leftover left-justified, zero bits below. For `bits` 6 or 7, which no
run reaches, the spec's shift amount is negative and the symbol is a free value (log 6). -/
def padSymbol (r : R85Regs) : Sym :=
  if r.bits.toNat ≤ 5 then .ofNat 5 ((r.rem.toNat <<< (5 - r.bits.toNat)) &&& 31)
  else Config.flushBeyond r.rem r.bits

/-- The response of `R85.FLUSH` (rule R56): the padded symbol, or nothing when no bit is left. -/
def flush85 (r : R85Regs) : Response :=
  if r.bits.toNat > 0 then .ok1 ((padSymbol r).setWidth 8) else .ok

/-- `R58.PUSH v` on the registers of `R58`, the symbol in range (rule R62): `t` is `{rem, v}`, its low `n` bits are
significant. -/
def push58 (r : R58Regs) (v : Sym) : R58Regs × Response :=
  let t := r.rem.toNat * 32 + v.toNat
  let n := r.bits.toNat + 5
  if n ≥ 8 then
    let y := (t >>> (n - 8)) &&& 255
    let m := n - 8
    ({ r with rem := .ofNat 7 (lowBits t m), bits := .ofNat 3 m }, .ok1 (.ofNat 8 y))
  else
    ({ r with rem := .ofNat 7 t, bits := .ofNat 3 n }, .ok)

/-- The padding checks of `R58.FIN` in their order (rules R63, R97): nonzero leftover bits, then at least 5 of them. -/
def padError? (r : R58Regs) : Option Status :=
  if r.rem.toNat ≠ 0 then some .ePadNonzero
  else if r.bits.toNat ≥ 5 then some .ePadExcess
  else none

end Sys2Proof.Machine
end

