-- ==== Sys2Proof/Machine/Ops.lean ====
section
/-! DEFINITION. The named operations every meaning is built from: writing a unit's registers, answering, raising an
error, halting a unit, clearing it, and the checks in the order of rule R97. -/

namespace Sys2Proof.Machine

/-- What a step answers. -/
abbrev Result := Host.Outcome State Fault Refusal

/-- Write the registers of `R85`. -/
def State.setR85 (r : R85Regs) (s : State) : State := { s with r85 := r }

/-- Write the registers of `R58`. -/
def State.setR58 (r : R58Regs) (s : State) : State := { s with r58 := r }

/-- Write the registers of `BCH`. -/
def State.setBch (r : BchRegs) (s : State) : State := { s with bch := r }

/-- Return a response to the host: every command returns exactly one (rules R2, R42). -/
def State.respond (r : Response) (s : State) : State := { s with responses := s.responses ++ [r] }

/-- `respond(...)`: the command ends with response `r` (rule R9). -/
def answer (r : Response) (s : State) : Result := .next (s.respond r)

/-- `raise E_X`: the command ends with `respond(E_X, 0, 0, 0)` and writes no register (rule R9). -/
def raise (e : Status) (s : State) : Result := answer (.error e) s

/-- The halt of a unit (rules R9, R94): `U.err <- 1`, `U.code <- E_X`, nothing else. -/
def State.halt (u : HaltingUnit) (e : Status) (s : State) : State :=
  match u with
  | .r58 => s.setR58 { s.r58 with err := true, code := e.code }
  | .bch => s.setBch { s.bch with err := true, code := e.code }

/-- TAKING AN EXCEPTION: `raise E_X(halt U)` (rules R9, R94). The command ends with `respond(E_X, 0, 0, 0)` and halts
the unit. -/
def raiseHalt (u : HaltingUnit) (e : Status) (s : State) : Result := raise e (s.halt u e)

/-- `R85` to the cleared state (rules R54, R101). -/
def State.clearR85 (s : State) : State := s.setR85 .cleared

/-- RETURN FROM AN EXCEPTION: `R58` to the cleared state, halted or not (rules R61, R96, R101). -/
def State.clearR58 (s : State) : State := s.setR58 .cleared

/-- RETURN FROM AN EXCEPTION: `BCH` to the cleared state, halted or not (rules R71, R96, R101). -/
def State.clearBch (cfg : Cfg) (s : State) : State := s.setBch (.cleared cfg)

/-- Every register to its reset value (rules R23, R89, R101). -/
def State.clearAll (cfg : Cfg) (s : State) : State := s.clearR85.clearR58.clearBch cfg

/-- The halted check of `R58` (rules R95, R97): a halted unit answers `E_HALTED` and writes nothing. -/
def guardR58 (s : State) (run : Result) : Result :=
  if s.r58.err then raise .eHalted s else run

/-- The halted check and then the phase check of `BCH` (rules R70, R95, R97), for a command that is accepted in the
phases `accepted`. -/
def guardBch (accepted : List Phase) (s : State) (run : Result) : Result :=
  if s.bch.err then raise .eHalted s
  else if accepted.contains s.bch.phase then run
  else raiseHalt .bch .eSeq s

/-- Absorb the symbols `v` and move to `phase` (rules R34, R67). -/
def State.absorbBch (cfg : Cfg) (v : List Sym) (phase : Phase) (s : State) : State :=
  s.setBch { s.bch with chk := absorbAll cfg s.bch.chk v, phase := phase }

end Sys2Proof.Machine
end

