-- ==== Sys2Proof/Machine/Bch.lean ====
section
/-! DEFINITION. The meanings of the commands of `BCH`, the checksum engine (42_bch_checksum.md). The phases each command
is accepted in are the rows of rule R70. A meaning that reads a parameter takes the parameters as an argument (rule R5):
`exec<Command>For cfg` is the command of a block with parameters `cfg`, `exec<Command>` that of the block itself. -/

namespace Sys2Proof.Machine

/-- `BCH.CLR` (R71): accepted in every phase and while halted. -/
def execBchClrFor (cfg : Cfg) (s : State) : Result := answer .ok (s.clearBch cfg)

/-- `BCH.HRPH c` (R72). -/
def execBchHrphFor (cfg : Cfg) (c : Byte) (s : State) : Result :=
  guardBch [.hrpHi] s (answer .ok (s.absorbBch cfg [hrpHigh c] s.bch.phase))

/-- `BCH.HSEP` (R73): the engine supplies the zero separator. -/
def execBchHsepFor (cfg : Cfg) (s : State) : Result :=
  guardBch [.hrpHi] s (answer .ok (s.absorbBch cfg [0] .hrpLo))

/-- `BCH.HRPL c` (R74). -/
def execBchHrplFor (cfg : Cfg) (c : Byte) (s : State) : Result :=
  guardBch [.hrpLo] s (answer .ok (s.absorbBch cfg [hrpLow c] s.bch.phase))

/-- `BCH.SYM v` (R75): the phase check comes before the range check. -/
def execBchSymFor (cfg : Cfg) (v : Byte) (s : State) : Result :=
  guardBch [.hrpLo, .data] s <|
    match symbol? v with
    | none => raiseHalt .bch .eRange s
    | some x => answer .ok (s.absorbBch cfg [x] .data)

/-- `BCH.FIN` (R76): six absorb steps in one command. -/
def execBchFinFor (cfg : Cfg) (s : State) : Result :=
  guardBch [.hrpLo, .data] s (answer .ok (s.absorbBch cfg sixZeros .done))

/-- `BCH.CKSUM i` (R77): writes nothing on success. -/
def execBchCksumFor (cfg : Cfg) (i : Byte) (s : State) : Result :=
  guardBch [.done] s <|
    match cksumIndex? i with
    | none => raiseHalt .bch .eRange s
    | some k => answer (.ok1 ((cksumSymbol (s.bch.chk ^^^ cfg.finalConst) k).setWidth 8)) s

/-- `BCH.VERIFY` (R78): a failed verification is no error. -/
def execBchVerifyFor (cfg : Cfg) (s : State) : Result :=
  guardBch [.data] s (answer (.ok1 (if s.bch.chk = cfg.finalConst then 1 else 0)) s)

/-- `BCH.CLR` (R71) of the block itself. -/
def execBchClr (s : State) : Result := execBchClrFor Config.cfg s

/-- `BCH.HRPH c` (R72) of the block itself. -/
def execBchHrph (c : Byte) (s : State) : Result := execBchHrphFor Config.cfg c s

/-- `BCH.HSEP` (R73) of the block itself. -/
def execBchHsep (s : State) : Result := execBchHsepFor Config.cfg s

/-- `BCH.HRPL c` (R74) of the block itself. -/
def execBchHrpl (c : Byte) (s : State) : Result := execBchHrplFor Config.cfg c s

/-- `BCH.SYM v` (R75) of the block itself. -/
def execBchSym (v : Byte) (s : State) : Result := execBchSymFor Config.cfg v s

/-- `BCH.FIN` (R76) of the block itself. -/
def execBchFin (s : State) : Result := execBchFinFor Config.cfg s

/-- `BCH.CKSUM i` (R77) of the block itself. -/
def execBchCksum (i : Byte) (s : State) : Result := execBchCksumFor Config.cfg i s

/-- `BCH.VERIFY` (R78) of the block itself. -/
def execBchVerify (s : State) : Result := execBchVerifyFor Config.cfg s

/-- `BCH.ST` (R79): accepted in every phase and while halted. -/
def execBchSt (s : State) : Result := answer (.ok2 s.bch.view0 0) s

end Sys2Proof.Machine
end

