-- ==== Sys2Proof/Machine/MapUnit.lean ====
section
/-! DEFINITION. The meanings of the commands of `MAP`, the charset mapper (43_charset_mapper.md). It has no state, so
its errors halt nothing (rule R83). -/

namespace Sys2Proof.Machine

/-- `MAP.S2C v` (R84). -/
def execMapS2c (v : Byte) (s : State) : Result :=
  match symbol? v with
  | none => raise .eRange s
  | some x => answer (.ok1 (charOf x)) s

/-- `MAP.C2S c` (R86). -/
def execMapC2s (c : Byte) (s : State) : Result :=
  match charsetInv c with
  | none => raise .eChar s
  | some x => answer (.ok1 (x.setWidth 8)) s

end Sys2Proof.Machine
end

