-- ==== Sys2Proof/Machine/R58.lean ====
section
/-! DEFINITION. The meanings of the commands of `R58`, the 5-to-8 regrouper (41_regroup_5to8.md). -/

namespace Sys2Proof.Machine

/-- `R58.CLR` (R61): accepted also while halted. -/
def execR58Clr (s : State) : Result := answer .ok s.clearR58

/-- `R58.PUSH v` (R62): the halted check, then the range check, then the regrouping. -/
def execR58Push (v : Byte) (s : State) : Result :=
  guardR58 s <|
    match symbol? v with
    | none => raiseHalt .r58 .eRange s
    | some x => answer (push58 s.r58 x).2 (s.setR58 (push58 s.r58 x).1)

/-- `R58.FIN` (R63): the halted check, then the padding checks. On success `R58.bits <- 0`; `rem` is already 0. -/
def execR58Fin (s : State) : Result :=
  guardR58 s <|
    match padError? s.r58 with
    | some e => raiseHalt .r58 e s
    | none => answer .ok (s.setR58 { s.r58 with bits := 0 })

/-- `R58.ST` (R64): accepted also while halted. -/
def execR58St (s : State) : Result := answer (.ok2 s.r58.view0 s.r58.view1) s

end Sys2Proof.Machine
end

