-- ==== Sys2Proof/Machine/R85.lean ====
section
/-! DEFINITION. The meanings of the commands of `R85`, the 8-to-5 regrouper (40_regroup_8to5.md). None of them can fail
(rule R58). -/

namespace Sys2Proof.Machine

/-- `R85.CLR` (R54). -/
def execR85Clr (s : State) : Result := answer .ok s.clearR85

/-- `R85.PUSH b` (R55). -/
def execR85Push (b : Byte) (s : State) : Result :=
  answer (push85 s.r85 b).2 (s.setR85 (push85 s.r85 b).1)

/-- `R85.FLUSH` (R56): the padded last symbol, if any, and the cleared state. -/
def execR85Flush (s : State) : Result := answer (flush85 s.r85) s.clearR85

/-- `R85.ST` (R57). -/
def execR85St (s : State) : Result := answer (.ok2 s.r85.view0 s.r85.view1) s

end Sys2Proof.Machine
end

