-- ==== Sys2Proof/Machine/Sys.lean ====
section
/-! DEFINITION. The meanings of the commands of `SYS` (44_sys.md). -/

namespace Sys2Proof.Machine

/-- `SYS.NOP` (R88). -/
def execSysNop (s : State) : Result := answer .ok s

/-- `SYS.RSTALL` (R89): accepted whatever units are halted. -/
def execSysRstallFor (cfg : Cfg) (s : State) : Result := answer .ok (s.clearAll cfg)

/-- `SYS.RSTALL` (R89) of the block itself. -/
def execSysRstall (s : State) : Result := execSysRstallFor Config.cfg s

end Sys2Proof.Machine
end

