-- ==== Sys2Proof/Machine/Dispatch.lean ====
section
/-! DEFINITION. One arm per command: the meaning it runs. -/

namespace Sys2Proof.Machine

/-- A decoded command at a state. -/
def exec (i : Instr) (s : State) : Host.Outcome State Fault Refusal :=
  match i with
  | .sysNop => Sys2Proof.Machine.execSysNop s
  | .sysRstall => Sys2Proof.Machine.execSysRstall s
  | .r85Clr => Sys2Proof.Machine.execR85Clr s
  | .r85Push b => Sys2Proof.Machine.execR85Push b s
  | .r85Flush => Sys2Proof.Machine.execR85Flush s
  | .r85St => Sys2Proof.Machine.execR85St s
  | .r58Clr => Sys2Proof.Machine.execR58Clr s
  | .r58Push v => Sys2Proof.Machine.execR58Push v s
  | .r58Fin => Sys2Proof.Machine.execR58Fin s
  | .r58St => Sys2Proof.Machine.execR58St s
  | .bchClr => Sys2Proof.Machine.execBchClr s
  | .bchHrph c => Sys2Proof.Machine.execBchHrph c s
  | .bchHsep => Sys2Proof.Machine.execBchHsep s
  | .bchHrpl c => Sys2Proof.Machine.execBchHrpl c s
  | .bchSym v => Sys2Proof.Machine.execBchSym v s
  | .bchFin => Sys2Proof.Machine.execBchFin s
  | .bchCksum k => Sys2Proof.Machine.execBchCksum k s
  | .bchVerify => Sys2Proof.Machine.execBchVerify s
  | .bchSt => Sys2Proof.Machine.execBchSt s
  | .mapS2c v => Sys2Proof.Machine.execMapS2c v s
  | .mapC2s c => Sys2Proof.Machine.execMapC2s c s

end Sys2Proof.Machine
end

