-- ==== Sys2Proof/Machine/Port.lean ====
section
/-! DEFINITION. The block with its parameters as an argument (rule R5): what a command does, and what the block does
with one input of the host, which is a command word, decoded before any state is read (rules R47, R97), or the hardware
reset (rule R101). -/

namespace Sys2Proof.Machine

/-- A decoded command at a state, in a block with parameters `cfg`. The commands that read no parameter are those of
`exec`, which is this function at the block's own parameters. -/
def execFor (cfg : Cfg) (i : Instr) (s : State) : Result :=
  match i with
  | .sysRstall => execSysRstallFor cfg s
  | .bchClr => execBchClrFor cfg s
  | .bchHrph c => execBchHrphFor cfg c s
  | .bchHsep => execBchHsepFor cfg s
  | .bchHrpl c => execBchHrplFor cfg c s
  | .bchSym v => execBchSymFor cfg v s
  | .bchFin => execBchFinFor cfg s
  | .bchCksum k => execBchCksumFor cfg k s
  | .bchVerify => execBchVerifyFor cfg s
  | .sysNop => exec .sysNop s
  | .r85Clr => exec .r85Clr s
  | .r85Push b => exec (.r85Push b) s
  | .r85Flush => exec .r85Flush s
  | .r85St => exec .r85St s
  | .r58Clr => exec .r58Clr s
  | .r58Push v => exec (.r58Push v) s
  | .r58Fin => exec .r58Fin s
  | .r58St => exec .r58St s
  | .bchSt => exec .bchSt s
  | .mapS2c v => exec (.mapS2c v) s
  | .mapC2s c => exec (.mapC2s c) s

/-- A reserved word: `respond(E_ILLEGAL, 0, 0, 0)` and no register changes, whatever unit the word names (rule R46). -/
def execReserved (s : State) : Result := raise .eIllegal s

/-- A command word, its command run by `run`: decoding comes first, whatever unit is halted (rules R47, R97). -/
def runWordBy (run : Instr → State → Result) (w : CmdWord) (s : State) : Result :=
  match decode w with
  | .ok i => run i s
  | .error _ => execReserved s

/-- A command word in a block with parameters `cfg`. -/
def runWordFor (cfg : Cfg) (w : CmdWord) (s : State) : Result := runWordBy (execFor cfg) w s

/-- The hardware reset (rule R101 (a)): every register to its reset value; it is no command and has no response. -/
def hardwareReset (cfg : Cfg) (s : State) : Result := .next (s.clearAll cfg)

/-- Put a command word where the block takes its next input. -/
def State.supplyWord (w : CmdWord) (s : State) : State := { s with inputs := .command w :: s.inputs }

/-- Put the words of a list of commands, in order, before whatever the host has already supplied. -/
def State.supply (is : List Instr) (s : State) : State :=
  { s with inputs := is.map (fun i => .command (encode i)) ++ s.inputs }

/-- The host's supply after the block has taken one input. -/
def State.takeInput (rest : List HostInput) (s : State) : State := { s with inputs := rest }

/-- One step of a block with parameters `cfg` whose commands are run by `run`: it takes the next input the host has
supplied and completes it (rules R34, R36). While nothing is supplied the block waits (rule R101; log 2). -/
def stepBy (cfg : Cfg) (run : Instr → State → Result) (s : State) : Result :=
  match s.inputs with
  | [] => .next s
  | .command w :: rest => runWordBy run w (s.takeInput rest)
  | .hardwareReset :: rest => hardwareReset cfg (s.takeInput rest)

/-- One step of a block with parameters `cfg`: the step function with `Cfg` as an argument (rules R5, R11). -/
def stepFor (cfg : Cfg) (s : State) : Result := stepBy cfg (execFor cfg) s

end Sys2Proof.Machine
end

