-- ==== Sys2Proof/Machine/Step.lean ====
section
/-! DEFINITION. One step of the block itself, and the supply of a table row's word. -/

namespace Sys2Proof.Machine

/-- One step: the step function of Machine/Port.lean at the block's own parameters, over `exec` (rules R5, R34, R36). -/
def step (s : State) : Host.Outcome State Fault Refusal := stepBy Config.cfg exec s

/-- `s` with a table row's word supplied as the very next command (log 10). -/
def State.withFetchWord (s : State) (nbits w : Nat) : State :=
  s.supplyWord (BitVec.ofNat 16 (w % 2 ^ nbits))

end Sys2Proof.Machine
end

