-- ==== Sys2Proof/Machine/Reference.lean ====
section
/-! DEFINITION. The functions whose work the calls of the block do (rules R52, R68, R69), written from their own rules
and not from the commands, and the presets of the parameters (rule R6). No meaning uses this file. -/

namespace Sys2Proof.Machine

/-- `bits_FROM(v) = v[FROM-1], ..., v[0]` (rule R52). -/
def bitsMsb (k v : Nat) : List Bool := (List.range k).reverse.map (fun i => v.testBit i)

/-- The number a bit string reads as, leftmost bit most significant (rules R26, R52). -/
def number (l : List Bool) : Nat := l.foldl (fun a b => 2 * a + b.toNat) 0

/-- The first `q` groups of `k` bits of `S`, in order (rules R26, R52). -/
def groups (k q : Nat) (S : List Bool) : List Nat :=
  (List.range q).map (fun j => number ((S.drop (j * k)).take k))

/-- `ConvertBits(input, FROM, TO, pad)` (rule R52); `none` is `ConversionError`. -/
def convertBits (input : List Nat) (src dst : Nat) (pad : Bool) : Option (List Nat) :=
  if input.any (fun v => v > 2 ^ src - 1) then none
  else
    let S := input.flatMap (bitsMsb src)
    let q := S.length / dst
    let r := S.length % dst
    let out := groups dst q S
    let tail := number (S.drop (q * dst))
    if pad then
      if r > 0 then some (out ++ [tail <<< (dst - r)]) else some out
    else if tail ≠ 0 then none
    else if r ≥ src then none
    else some out

/-- `HrpExpand` (rule R68): the high parts, the zero separator, the low parts. -/
def hrpExpand (hrp : List Byte) : List Sym := hrp.map hrpHigh ++ [0] ++ hrp.map hrpLow

/-- `Polymod` (rule R69). -/
def polymod (cfg : Cfg) (s : List Sym) : Acc := absorbAll cfg cfg.chkInit s

/-- `ComputeChecksum` (rule R69): symbol `i` is `p[29-5i : 25-5i]`. -/
def computeChecksum (cfg : Cfg) (hrp : List Byte) (data : List Sym) : List Sym :=
  let p := polymod cfg (hrpExpand hrp ++ data ++ [0, 0, 0, 0, 0, 0]) ^^^ cfg.finalConst
  [p.extractLsb' 25 5, p.extractLsb' 20 5, p.extractLsb' 15 5, p.extractLsb' 10 5, p.extractLsb' 5 5, p.extractLsb' 0 5]

/-- `VerifyChecksum` (rule R69). -/
def verifyChecksum (cfg : Cfg) (hrp : List Byte) (syms : List Sym) : Bool :=
  polymod cfg (hrpExpand hrp ++ syms) = cfg.finalConst

/-- `pack(k0..k5)` (rule R81): `k0` in bits 29 to 25 down to `k5` in bits 4 to 0. -/
def pack (k0 k1 k2 k3 k4 k5 : Sym) : Acc := k0 ++ k1 ++ k2 ++ k3 ++ k4 ++ k5

/-- The exclusive-or of the low 5 bits of those `GEN[i]` that `m` selects: a linear combination over GF(2) (rule R82). -/
def lowCombination (cfg : Cfg) (m : BitVec 5) : Sym := (genMix cfg m).extractLsb' 0 5

/-- The condition of rule R82: the low 5 bits of `GEN[0..4]` are linearly independent over GF(2). -/
def lowIndependent (cfg : Cfg) : Prop := ∀ m : BitVec 5, lowCombination cfg m = 0 → m = 0

/-- The preset `BECH32_SEGWIT` (rule R6). UNVERIFIED: general knowledge the spec supplies (G1 to G3; log 9).
No meaning uses it. -/
def bech32Segwit : Cfg :=
  { gen0 := 0x3b6a57b2, gen1 := 0x26508e6d, gen2 := 0x1ea119fa, gen3 := 0x3d4233dd, gen4 := 0x2a1462b3
    chkInit := 0x00000001, finalConst := 0x00000001 }

/-- The preset with the second final constant (rule R6, G4). UNVERIFIED, log 9. -/
def bech32m : Cfg := { bech32Segwit with finalConst := 0x2bc830a3 }

end Sys2Proof.Machine
end

