-- ==== Sys2Proof/Machine/Calls.lean ====
section
/-! DEFINITION. Pseudo-instructions (rule R50), the calls of the units (rule R103), and what the host reads from the
responses. No meaning uses this file. -/

namespace Sys2Proof.Machine

/-- The pseudo-instructions of rule R50. -/
inductive Pseudo where
  | bchHrp (s : List Byte)
  | bchSyms (v : List Byte)
  | r85Bytes (b : List Byte)
  | r58Syms (v : List Byte)
  | bchCksum6
  deriving DecidableEq, Repr

/-- The expansion of a pseudo-instruction (rule R50). -/
def Pseudo.expand : Pseudo → List Instr
  | .bchHrp s => s.map .bchHrph ++ [.bchHsep] ++ s.map .bchHrpl
  | .bchSyms v => v.map .bchSym
  | .r85Bytes b => b.map .r85Push
  | .r58Syms v => v.map .r58Push
  | .bchCksum6 => [.bchCksum 0, .bchCksum 1, .bchCksum 2, .bchCksum 3, .bchCksum 4, .bchCksum 5]

/-- `CLR?`, the optional first command of a call (rule R103). -/
def clrIf (clr : Bool) (i : Instr) : List Instr := if clr then [i] else []

/-- A `R85` call (rule R103): `CLR? PUSH* FLUSH`. -/
def r85Call (clr : Bool) (bytes : List Byte) : List Instr :=
  clrIf clr .r85Clr ++ (Pseudo.r85Bytes bytes).expand ++ [.r85Flush]

/-- A `R58` call (rule R103): `CLR? PUSH* FIN`. -/
def r58Call (clr : Bool) (vals : List Byte) : List Instr :=
  clrIf clr .r58Clr ++ (Pseudo.r58Syms vals).expand ++ [.r58Fin]

/-- A symbol as an operand. -/
def symOperand (v : Sym) : Byte := v.setWidth 8

/-- The common beginning of the `BCH` calls (rule R103): `CLR? HRPH* HSEP HRPL* SYM*`. -/
def bchFeed (clr : Bool) (hrp : List Byte) (syms : List Sym) : List Instr :=
  clrIf clr .bchClr ++ (Pseudo.bchHrp hrp).expand ++ (Pseudo.bchSyms (syms.map symOperand)).expand

/-- A `BCH` compute call (rule R103). -/
def bchComputeCall (clr : Bool) (hrp : List Byte) (data : List Sym) : List Instr :=
  bchFeed clr hrp data ++ [.bchFin] ++ Pseudo.bchCksum6.expand

/-- A `BCH` verify call (rule R103); its shape asks for at least one symbol. -/
def bchVerifyCall (clr : Bool) (hrp : List Byte) (syms : List Sym) : List Instr :=
  bchFeed clr hrp syms ++ [.bchVerify]

/-- The values a response carries: `out0` before `out1`, respecting `count` (rules R30, R42, R59). -/
def Response.outputs (r : Response) : List Nat := [r.out0.toNat, r.out1.toNat].take r.count.toNat

/-- The values a sequence of responses carries, concatenated in order. -/
def outputsOf (rs : List Response) : List Nat := rs.flatMap Response.outputs

/-- The machine with parameters `cfg`; the block itself is this machine at `Config.cfg`. -/
def coreFor (cfg : Cfg) : Host.Core :=
  { State := State, Fault := Fault, Refusal := Refusal, step := stepFor cfg, reset := State.resetFor cfg }

/-- A list of commands run one after the other, each completely before the next (rule R36), in a block with parameters
`cfg`. -/
def execAll (cfg : Cfg) : List Instr → State → Result
  | [], s => .next s
  | i :: is, s =>
    match execFor cfg i s with
    | .next t => execAll cfg is t
    | .fault f => .fault f
    | .refused r => .refused r

end Sys2Proof.Machine
end

