-- ==== Sys2Proof/Machine/Asm.lean ====
section
/-! DEFINITION. The textual form of commands and pseudo-instructions (rules R49, R50), on lists of characters. What the
two rules leave open of the text is log 11. No meaning uses this file. -/

namespace Sys2Proof.Machine

/-- `UNIT.OP` (rules R43, R49). -/
def mnemonic : Instr → String
  | .sysNop => "SYS.NOP"
  | .sysRstall => "SYS.RSTALL"
  | .r85Clr => "R85.CLR"
  | .r85Push _ => "R85.PUSH"
  | .r85Flush => "R85.FLUSH"
  | .r85St => "R85.ST"
  | .r58Clr => "R58.CLR"
  | .r58Push _ => "R58.PUSH"
  | .r58Fin => "R58.FIN"
  | .r58St => "R58.ST"
  | .bchClr => "BCH.CLR"
  | .bchHrph _ => "BCH.HRPH"
  | .bchHsep => "BCH.HSEP"
  | .bchHrpl _ => "BCH.HRPL"
  | .bchSym _ => "BCH.SYM"
  | .bchFin => "BCH.FIN"
  | .bchCksum _ => "BCH.CKSUM"
  | .bchVerify => "BCH.VERIFY"
  | .bchSt => "BCH.ST"
  | .mapS2c _ => "MAP.S2C"
  | .mapC2s _ => "MAP.C2S"

/-- The commands without operand, by name. -/
def plainCommands : List Instr :=
  [.sysNop, .sysRstall, .r85Clr, .r85Flush, .r85St, .r58Clr, .r58Fin, .r58St] ++
  [.bchClr, .bchHsep, .bchFin, .bchVerify, .bchSt]

/-- The commands with operand `x`. -/
def operandCommands (x : Byte) : List Instr :=
  [.r85Push x, .r58Push x, .bchHrph x, .bchHrpl x, .bchSym x, .bchCksum x, .mapS2c x, .mapC2s x]

/-- The apostrophe. -/
def apostrophe : Char := Char.ofNat 39

/-- The double quote. -/
def quoteMark : Char := Char.ofNat 34

/-- A hexadecimal digit. -/
def hexDigit (d : Nat) : Char := if d < 10 then Char.ofNat (48 + d) else Char.ofNat (87 + d)

/-- The text of a command, its operand as `0x` and two hexadecimal digits (rule R49). -/
def printCommand (i : Instr) : List Char :=
  (mnemonic i).toList ++
  match i.operand? with
  | none => []
  | some x => [' ', '0', 'x', hexDigit (x.toNat / 16), hexDigit (x.toNat % 16)]

/-- The value of a digit in `base` 10 or 16. -/
def digitValue (base : Nat) (c : Char) : Option Nat :=
  let n := c.toNat
  let d := if 48 ≤ n ∧ n ≤ 57 then some (n - 48)
    else if 97 ≤ n ∧ n ≤ 102 then some (n - 87)
    else if 65 ≤ n ∧ n ≤ 70 then some (n - 55)
    else none
  d.bind (fun v => if v < base then some v else none)

/-- The value of a digit string after the digits already read give `acc`. -/
def digits (base : Nat) : Nat → List Char → Option Nat
  | acc, [] => some acc
  | acc, c :: cs => (digitValue base c).bind (fun d => digits base (acc * base + d) cs)

/-- A number that fits the operand field (rule R44). -/
def byteOf (n : Nat) : Option Byte := if n < 256 then some (.ofNat 8 n) else none

/-- An operand (rule R49): `0x..`, plain decimal, or a character in single quotes standing for its ASCII code. -/
def parseOperand (l : List Char) : Option Byte :=
  match l with
  | [] => none
  | '0' :: 'x' :: d :: ds => (digits 16 0 (d :: ds)).bind byteOf
  | [a, c, b] =>
    if a = apostrophe ∧ b = apostrophe then (if c.toNat < 128 then byteOf c.toNat else none)
    else (digits 10 0 [a, c, b]).bind byteOf
  | d :: ds => (digits 10 0 (d :: ds)).bind byteOf

/-- One command (rule R49): `UNIT.OP`, and for the commands that take an operand one space and the operand. -/
def parseCommand (l : List Char) : Option Instr :=
  let name := l.takeWhile (fun c => c ≠ ' ')
  match l.drop name.length with
  | [] => plainCommands.find? (fun i => (mnemonic i).toList = name)
  | _ :: text =>
    (parseOperand text).bind (fun x => (operandCommands x).find? (fun i => (mnemonic i).toList = name))

/-- All of a list's results, or none. -/
def allSome {α β : Type} (f : α → Option β) : List α → Option (List β)
  | [] => some []
  | a :: as => (f a).bind (fun b => (allSome f as).map (fun bs => b :: bs))

/-- Leave out the spaces at both ends. -/
def trimSpaces (l : List Char) : List Char :=
  ((l.dropWhile (fun c => c = ' ')).reverse.dropWhile (fun c => c = ' ')).reverse

/-- Cut a text at every `sep`. -/
def splitAt (sep : Char) : List Char → List (List Char)
  | [] => [[]]
  | c :: cs =>
    match splitAt sep cs with
    | [] => [[c]]
    | p :: ps => if c = sep then [] :: p :: ps else (c :: p) :: ps

/-- The values `v1, ..., vn` of a pseudo-instruction (rule R50). DESIGN CHOICE, log 11: the list is cut at every `,`, also
inside single quotes, so a quoted comma is no value. -/
def parseValues (text : List Char) : Option (List Byte) :=
  allSome (fun p => parseOperand (trimSpaces p)) (splitAt ',' text)

/-- The string `"s"` of `BCH.HRP`, of at least one character (rule R50). -/
def parseQuoted (text : List Char) : Option (List Byte) :=
  match text with
  | a :: rest =>
    if a = quoteMark ∧ rest.getLast? = some quoteMark ∧ rest.length > 1 then
      allSome (fun c => if c.toNat < 128 ∧ c ≠ quoteMark then byteOf c.toNat else none) rest.dropLast
    else none
  | [] => none

/-- One pseudo-instruction (rule R50). -/
def parsePseudo (l : List Char) : Option Pseudo :=
  let name := l.takeWhile (fun c => c ≠ ' ')
  match l.drop name.length with
  | [] => if name = "BCH.CKSUM6".toList then some .bchCksum6 else none
  | _ :: text =>
    if name = "BCH.HRP".toList then (parseQuoted text).map .bchHrp
    else if name = "BCH.SYMS".toList then (parseValues text).map .bchSyms
    else if name = "R85.BYTES".toList then (parseValues text).map .r85Bytes
    else if name = "R58.SYMS".toList then (parseValues text).map .r58Syms
    else none

/-- One line: a comment starts at `;` (rule R49); a line with nothing else stands for no command. DESIGN CHOICE, log 11: the
first `;` starts the comment also inside quotes, where R49 does not say which wins. -/
def assembleLine (l : List Char) : Option (List Instr) :=
  let text := trimSpaces (l.takeWhile (fun c => c ≠ ';'))
  if text = [] then some []
  else
    match parseCommand text with
    | some i => some [i]
    | none => (parsePseudo text).map Pseudo.expand

/-- A program text, one command per line (rule R49). -/
def assemble (l : List Char) : Option (List Instr) :=
  (allSome assembleLine (splitAt (Char.ofNat 10) l)).map List.flatten

end Sys2Proof.Machine
end

