-- ==== Sys2Proof/Safety.lean ====
section
/-! DEFINITION. What a good state, a good response and a permitted status are, in the terms the statements use. -/

open Sys2Proof Sys2Proof.Machine

/-- Invariant (a) of rule R14: the leftover of `R85` is canonical. -/
abbrev Sys2Proof.Machine.R85Regs.legal (r : R85Regs) : Prop := r.bits.toNat ≤ 4 ∧ r.rem.toNat < 2 ^ r.bits.toNat

/-- Invariants (b) and (c) of rule R14: the leftover of `R58` is canonical, and its code fits its flag. -/
abbrev Sys2Proof.Machine.R58Regs.legal (r : R58Regs) : Prop :=
  r.bits.toNat ≤ 7 ∧ r.rem.toNat < 2 ^ r.bits.toNat ∧
  (r.err = false → r.code = 0) ∧ (r.err = true → r.code = 4 ∨ r.code = 5 ∨ r.code = 6)

/-- Invariants (d) and (e) of rule R14. -/
abbrev Sys2Proof.Machine.BchRegs.legal (r : BchRegs) : Prop :=
  (r.err = false → r.code = 0) ∧ (r.err = true → r.code = 3 ∨ r.code = 4) ∧ r.chk.toNat < 2 ^ 30

/-- The invariants of rule R14. -/
abbrev Sys2Proof.Machine.State.legal (s : State) : Prop := s.r85.legal ∧ s.r58.legal ∧ s.bch.legal

/-- The laws of the response record (rule R42). -/
abbrev Sys2Proof.Machine.Response.lawful (r : Response) : Prop :=
  (r.status ≠ .ok → r.count = 0 ∧ r.out0 = 0 ∧ r.out1 = 0) ∧
  (r.count = 0 → r.out0 = 0 ∧ r.out1 = 0) ∧
  (r.count = 1 → r.out1 = 0) ∧
  r.count ≠ 3

/-- The error statuses a command can return (rule R93, row by row); `OK` it can always return. -/
def Sys2Proof.Instr.errors : Instr → List Status
  | .sysNop | .sysRstall => []
  | .r85Clr | .r85Push _ | .r85Flush | .r85St => []
  | .r58Clr | .r58St => []
  | .r58Push _ => [.eHalted, .eRange]
  | .r58Fin => [.eHalted, .ePadNonzero, .ePadExcess]
  | .bchClr | .bchSt => []
  | .bchHrph _ | .bchHsep | .bchHrpl _ | .bchFin | .bchVerify => [.eHalted, .eSeq]
  | .bchSym _ | .bchCksum _ => [.eHalted, .eSeq, .eRange]
  | .mapS2c _ => [.eRange]
  | .mapC2s _ => [.eChar]

/-- The statuses that halt `R58` or `BCH` when one of its commands raises them (rules R91, R94). -/
def Sys2Proof.Machine.Status.halts : Status → Bool
  | .eSeq | .eRange | .ePadNonzero | .ePadExcess => true
  | .ok | .eIllegal | .eHalted | .eChar => false

/-- The commands that never write a register, whatever they answer (rule R35). -/
def Sys2Proof.Instr.readOnly : Instr → Bool
  | .sysNop | .r85St | .r58St | .bchSt | .mapS2c _ | .mapC2s _ => true
  | .sysRstall | .r85Clr | .r85Push _ | .r85Flush => false
  | .r58Clr | .r58Push _ | .r58Fin => false
  | .bchClr | .bchHrph _ | .bchHsep | .bchHrpl _ | .bchSym _ | .bchFin | .bchCksum _ | .bchVerify => false

/-- The phases in which a `BCH` command executes, the columns of rule R70 that say ok. -/
def Sys2Proof.Instr.phases : Instr → List Phase
  | .bchHrph _ | .bchHsep => [.hrpHi]
  | .bchHrpl _ => [.hrpLo]
  | .bchSym _ | .bchFin => [.hrpLo, .data]
  | .bchCksum _ => [.done]
  | .bchVerify => [.data]
  | .bchClr | .bchSt => [.hrpHi, .hrpLo, .data, .done]
  | .sysNop | .sysRstall => []
  | .r85Clr | .r85Push _ | .r85Flush | .r85St => []
  | .r58Clr | .r58Push _ | .r58Fin | .r58St => []
  | .mapS2c _ | .mapC2s _ => []

/-- The phase a `BCH` command that executes leaves, the arrows of rule R70. -/
def Sys2Proof.Instr.nextPhase (i : Instr) (p : Phase) : Phase :=
  match i with
  | .bchClr => .hrpHi
  | .bchHsep => .hrpLo
  | .bchSym _ => .data
  | .bchFin => .done
  | .bchHrph _ | .bchHrpl _ | .bchCksum _ | .bchVerify | .bchSt => p
  | .sysNop | .sysRstall => p
  | .r85Clr | .r85Push _ | .r85Flush | .r85St => p
  | .r58Clr | .r58Push _ | .r58Fin | .r58St => p
  | .mapS2c _ | .mapC2s _ => p

/-- The two states give a command of target `u` the same registers to work on (rule R12). -/
def Sys2Proof.Machine.sameUnit (u : Target) (s t : State) : Prop :=
  match u with
  | .r85 => s.r85 = t.r85
  | .r58 => s.r58 = t.r58
  | .bch => s.bch = t.bch
  | .map => True
  | .sys => True

/-- The operand of `MAP.C2S` is a code outside the charset. -/
def Sys2Proof.Instr.unknownChar : Instr → Bool
  | .mapC2s c => !charset.contains c
  | .sysNop | .sysRstall => false
  | .r85Clr | .r85Push _ | .r85Flush | .r85St => false
  | .r58Clr | .r58Push _ | .r58Fin | .r58St => false
  | .bchClr | .bchHrph _ | .bchHsep | .bchHrpl _ | .bchSym _ | .bchFin | .bchCksum _ | .bchVerify | .bchSt => false
  | .mapS2c _ => false

/-- The checks on a decoded command in the order of rule R97, each with the status it raises when it fails: halted,
phase, range, padding, charset. -/
def Sys2Proof.Instr.checks (i : Instr) (s : State) : List (Bool × Status) :=
  [(i.target = .r58 ∧ i ≠ .r58Clr ∧ i ≠ .r58St ∧ s.r58.err, .eHalted),
   (i.target = .bch ∧ i ≠ .bchClr ∧ i ≠ .bchSt ∧ s.bch.err, .eHalted),
   (i.target = .bch ∧ s.bch.phase ∉ i.phases, .eSeq),
   (i.inRange = false, .eRange),
   (i = .r58Fin ∧ s.r58.rem ≠ 0, .ePadNonzero),
   (i = .r58Fin ∧ 5 ≤ s.r58.bits.toNat, .ePadExcess),
   (i.unknownChar, .eChar)]

/-- The commands `is`, supplied at `s` and run to their end in a block with parameters `cfg`, leave `t` and return the
responses `rs`, one each, all of them `OK`. -/
def Sys2Proof.Machine.succeeds (cfg : Cfg) (is : List Instr) (s t : State) (rs : List Response) : Prop :=
  (coreFor cfg).run is.length (s.supply is) = .next t ∧
  t.responses = s.responses ++ rs ∧ rs.length = is.length ∧ ∀ r ∈ rs, r.status = .ok

/-- The values of a sequence of responses, read as symbols. -/
def Sys2Proof.Machine.symbolsOf (rs : List Response) : List Sym := (outputsOf rs).map (BitVec.ofNat 5)
end

