-- ==== Sys2Proof/Certificates/Slice0/Obligations.lean ====
section
/-! DEFINITION. The statements about the model. The spec's rules are cited by number. Where the spec marks a rule
"[derived: ...]", or where a statement rests on a choice of the model, the docstring says so. A statement whose commands
read a parameter is about `execFor cfg` and `stepFor cfg` for every `cfg`; the block's own `exec` and `step` are these at
`Config.cfg` (the statement `BlockIsTheMachineAtItsParameters`). -/

open Sys2Proof Sys2Proof.Machine

/-! ### Reset, invariants, the step -/

/-- The block itself is the machine with parameters as an argument (R5), at the one open value `Config.cfg`. That there is
such a constant is the model's choice (log 1). -/
def Obligations.BlockIsTheMachineAtItsParameters : Prop :=
  (∀ (i : Instr) (s : State), exec i s = execFor Config.cfg i s) ∧
  (∀ s : State, step s = stepFor Config.cfg s) ∧
  Sys2Proof.core = coreFor Config.cfg

/-- R23. Every register after reset holds the value of the reset column of R13, whatever the parameters. -/
def Obligations.ResetRegistersHoldTheirResetValues : Prop :=
  ∀ (cfg : Cfg) (s : State), s = State.resetFor cfg ∨ (s = State.reset ∧ cfg = Config.cfg) →
    s.r85.rem = 0 ∧ s.r85.bits = 0 ∧
    s.r58.rem = 0 ∧ s.r58.bits = 0 ∧ s.r58.err = false ∧ s.r58.code = 0 ∧
    s.bch.chk = cfg.chkInit ∧ s.bch.phase.code = 0 ∧ s.bch.err = false ∧ s.bch.code = 0

/-- R101. The three events that put registers to their reset values: the hardware reset and `SYS.RSTALL` every register,
each unit's `CLR` that unit's only. That the hardware reset comes as one of the host's
inputs is the model's choice (log 4). -/
def Obligations.ResetEventsClearRegisters : Prop :=
  ∀ (cfg : Cfg) (s : State),
    (∀ rest, s.inputs = .hardwareReset :: rest →
      stepFor cfg s = .next { s with
        r85 := ⟨0, 0⟩, r58 := ⟨0, 0, false, 0⟩, bch := ⟨cfg.chkInit, .hrpHi, false, 0⟩, inputs := rest }) ∧
    execFor cfg .sysRstall s = .next { s with
      r85 := ⟨0, 0⟩, r58 := ⟨0, 0, false, 0⟩, bch := ⟨cfg.chkInit, .hrpHi, false, 0⟩
      responses := s.responses ++ [⟨.ok, 0, 0, 0⟩] } ∧
    execFor cfg .r85Clr s = .next { s with r85 := ⟨0, 0⟩, responses := s.responses ++ [⟨.ok, 0, 0, 0⟩] } ∧
    execFor cfg .r58Clr s = .next { s with r58 := ⟨0, 0, false, 0⟩, responses := s.responses ++ [⟨.ok, 0, 0, 0⟩] } ∧
    execFor cfg .bchClr s = .next { s with
      bch := ⟨cfg.chkInit, .hrpHi, false, 0⟩, responses := s.responses ++ [⟨.ok, 0, 0, 0⟩] }

/-- The invariants of R14 hold after reset (the spec marks R14 derived). -/
def Obligations.LegalAfterReset : Prop := ∀ cfg : Cfg, (State.resetFor cfg).legal

/-- Every step keeps the invariants of R14, from every state that has them: canonical leftovers, codes that fit their
flags, a 30-bit accumulator (the spec marks R14 derived). -/
def Obligations.EveryStepKeepsLegal : Prop :=
  (∀ s t : State, s.legal → step s = .next t → t.legal) ∧
  ∀ (cfg : Cfg) (s t : State), s.legal → stepFor cfg s = .next t → t.legal

/-- A step runs the command that the next supplied word decodes to, at the state from which that word has been taken;
nothing else is added. -/
def Obligations.StepRunsTheDecodedCommand : Prop :=
  ∀ (s : State) (w : CmdWord) (i : Instr) (rest : List HostInput),
    s.inputs = .command w :: rest → decode w = .ok i →
    step s = exec i { s with inputs := rest } ∧ ∀ cfg : Cfg, stepFor cfg s = execFor cfg i { s with inputs := rest }

/-- Every step answers with a next state, and a step with nothing supplied changes nothing: the block waits. The second
clause is the model's choice (log 2), after "after reset the block waits for its first command" (R101). -/
def Obligations.EveryStepAnswersOrWaits : Prop :=
  (∀ s : State, (∃ t, step s = .next t) ∧ ∀ cfg : Cfg, ∃ t, stepFor cfg s = .next t) ∧
  ∀ s : State, s.inputs = [] → step s = .next s ∧ ∀ cfg : Cfg, stepFor cfg s = .next s

/-! ### Encoding -/

/-- Decoding the word of a command gives the command back, for all 21 rows and every operand value. -/
def Obligations.DecodeInvertsEncode : Prop := ∀ i : Instr, decode (encode i) = .ok i

/-- A word decodes to a command exactly when it selects that command's row of R43, `w & mask = match`, and its operand
is `w[7:0]`. So no two rows overlap. -/
def Obligations.WordSelectsItsRow : Prop :=
  ∀ (w : CmdWord) (i : Instr),
    decode w = .ok i ↔ w &&& i.rowMask = i.rowMatch ∧ ∀ x, i.operand? = some x → x = operandField w

/-- R46. The reserved words, kind by kind, and what executing one does: `E_ILLEGAL`, and no register changes, whatever
unit is halted. -/
def Obligations.ReservedWordsAnswerIllegal : Prop :=
  (∀ w : CmdWord,
    let unit := (w.extractLsb' 12 4).toNat
    let op := (w.extractLsb' 8 4).toNat
    let x := (w.extractLsb' 0 8).toNat
    ((∃ e, decode w = .error e) ↔
      5 ≤ unit ∨
      (unit = 0 ∧ 2 ≤ op) ∨
      ((unit = 1 ∨ unit = 2) ∧ 3 ≤ op ∧ op ≤ 14) ∨
      (unit = 3 ∧ 8 ≤ op ∧ op ≤ 14) ∨
      (unit = 4 ∧ (op = 0 ∨ 3 ≤ op)) ∨
      (x ≠ 0 ∧ ((unit = 0 ∧ op ≤ 1) ∨
        ((unit = 1 ∨ unit = 2) ∧ (op = 0 ∨ op = 2 ∨ op = 15)) ∨
        (unit = 3 ∧ (op = 0 ∨ op = 2 ∨ op = 5 ∨ op = 7 ∨ op = 15)))))) ∧
  ∀ (s : State) (w : CmdWord) (e : DecodeError) (rest : List HostInput),
    s.inputs = .command w :: rest → decode w = .error e →
    step s = .next { s with inputs := rest, responses := s.responses ++ [⟨.eIllegal, 0, 0, 0⟩] } ∧
    ∀ cfg : Cfg,
      stepFor cfg s = .next { s with inputs := rest, responses := s.responses ++ [⟨.eIllegal, 0, 0, 0⟩] }

/-- Words written out from R43 and R49 decode to the commands they stand for. -/
def Obligations.SampleWordsDecode : Prop :=
  decode 0b0000_0001_00000000 = .ok .sysRstall ∧
  decode 0b0001_0001_11111111 = .ok (.r85Push 0xff) ∧
  decode 0b0010_0001_00011111 = .ok (.r58Push 31) ∧
  decode 0b0011_0001_01100001 = .ok (.bchHrph 0x61) ∧
  decode 0b0011_0110_00000101 = .ok (.bchCksum 5) ∧
  decode 0b0100_0010_01110001 = .ok (.mapC2s 0x71)

/-- The text of a command (R49) reads back as the command; and the examples of R49. The printed form of the operand is
the model's choice (log 11). -/
def Obligations.CommandTextReadsBack : Prop :=
  (∀ i : Instr, parseCommand (printCommand i) = some i) ∧
  (parseCommand "R85.PUSH 0xff".toList).map encode = some 0x11FF ∧
  (parseCommand "BCH.HRPH 'a'".toList).map encode = some 0x3161 ∧
  (parseCommand "BCH.HSEP".toList).map encode = some 0x3200 ∧
  (parseCommand "MAP.C2S 'q'".toList).map encode = some 0x4271 ∧
  (parseCommand "BCH.CKSUM 5".toList).map encode = some 0x3605

/-! ### Responses, errors, halting -/

/-- R42. Every command word, reserved or not, returns exactly one response, which obeys the laws of the record; response
and registers afterwards are a function of the registers before, the word and the parameters alone. -/
def Obligations.EveryWordReturnsOneLawfulResponse : Prop :=
  (∀ (cfg : Cfg) (w : CmdWord) (s : State), ∃ t r,
    runWordFor cfg w s = .next t ∧ t.responses = s.responses ++ [r] ∧ r.lawful ∧ r.status.code.toNat ≤ 7) ∧
  ∀ (cfg : Cfg) (w : CmdWord) (s s' : State),
    s'.r85 = s.r85 → s'.r58 = s.r58 → s'.bch = s.bch →
    ∃ t t' r, runWordFor cfg w s = .next t ∧ runWordFor cfg w s' = .next t' ∧
      t.responses = s.responses ++ [r] ∧ t'.responses = s'.responses ++ [r] ∧
      t'.r85 = t.r85 ∧ t'.r58 = t.r58 ∧ t'.bch = t.bch

/-- The statuses a command can return are those of its row in R93, and no command of `R85` fails (R58); the spec marks
both derived. -/
def Obligations.StatusesAreThoseOfTheTable : Prop :=
  ∀ (cfg : Cfg) (i : Instr) (s : State), ∃ t r,
    execFor cfg i s = .next t ∧ t.responses = s.responses ++ [r] ∧ (r.status = .ok ∨ r.status ∈ i.errors)

/-- R12. A command of one unit writes no register of another and reads none of another; only `SYS.RSTALL` writes more
than one unit. No command writes the host's supply. -/
def Obligations.UnitsShareNoRegister : Prop :=
  (∀ (cfg : Cfg) (i : Instr) (s : State), ∃ t, execFor cfg i s = .next t ∧ t.inputs = s.inputs ∧
    (i ≠ .sysRstall →
      (i.target ≠ .r85 → t.r85 = s.r85) ∧ (i.target ≠ .r58 → t.r58 = s.r58) ∧ (i.target ≠ .bch → t.bch = s.bch))) ∧
  ∀ (cfg : Cfg) (i : Instr) (s s' : State), sameUnit i.target s s' →
    ∃ t t' r, execFor cfg i s = .next t ∧ execFor cfg i s' = .next t' ∧
      t.responses = s.responses ++ [r] ∧ t'.responses = s'.responses ++ [r] ∧ sameUnit i.target t t'

/-- The read-only commands write no register; `BCH.CKSUM` and `BCH.VERIFY` write none when they succeed; all of these
and the clears, repeated, return the same response and leave the same registers. The spec marks R35 derived. -/
def Obligations.ReadsHaveNoSideEffect : Prop :=
  (∀ (i : Instr) (s : State), i.readOnly = true →
    ∃ r, exec i s = .next { s with responses := s.responses ++ [r] } ∧
      (∀ q, exec i { s with responses := q } = .next { s with responses := q ++ [r] }) ∧
      ∀ (cfg : Cfg) (q : List Response),
        execFor cfg i { s with responses := q } = .next { s with responses := q ++ [r] }) ∧
  (∀ (cfg : Cfg) (i : Instr) (s t : State) (r : Response), (∃ k, i = .bchCksum k) ∨ i = .bchVerify →
    execFor cfg i s = .next t → t.responses = s.responses ++ [r] → r.status = .ok →
    t = { s with responses := s.responses ++ [r] } ∧
    ∀ q, execFor cfg i { s with responses := q } = .next { s with responses := q ++ [r] }) ∧
  ∀ (cfg : Cfg) (i : Instr) (s t : State), i ∈ [.sysRstall, .r85Clr, .r58Clr, .bchClr] →
    execFor cfg i s = .next t →
    t.responses = s.responses ++ [⟨.ok, 0, 0, 0⟩] ∧
    execFor cfg i t = .next { t with responses := t.responses ++ [⟨.ok, 0, 0, 0⟩] }

/-- R94. A command that fails writes nothing but, when the error halts, its unit's `err` and `code`; `E_HALTED`, the
errors of `MAP` and `E_ILLEGAL` halt nothing and write nothing. -/
def Obligations.FailedCommandWritesOnlyTheHalt : Prop :=
  (∀ (cfg : Cfg) (i : Instr) (s t : State) (r : Response),
    execFor cfg i s = .next t → t.responses = s.responses ++ [r] → r.status ≠ .ok →
    (i.target = .r58 → r.status.halts = true →
      t = { s with r58 := { s.r58 with err := true, code := r.status.code }, responses := s.responses ++ [r] }) ∧
    (i.target = .bch → r.status.halts = true →
      t = { s with bch := { s.bch with err := true, code := r.status.code }, responses := s.responses ++ [r] }) ∧
    (i.target ≠ .r58 ∧ i.target ≠ .bch ∨ r.status.halts = false → t = { s with responses := s.responses ++ [r] })) ∧
  ∀ (cfg : Cfg) (w : CmdWord) (s : State) (e : DecodeError), decode w = .error e →
    runWordFor cfg w s = .next { s with responses := s.responses ++ [⟨.eIllegal, 0, 0, 0⟩] }

/-- R95. A halted unit refuses every command but `CLR` and `ST` with `E_HALTED` and keeps all its registers; `ST`
answers with `err = 1` and the code; commands of the other units and `SYS` answer as if it were not halted. -/
def Obligations.HaltedUnitRefuses : Prop :=
  (∀ (cfg : Cfg) (i : Instr) (s : State), s.r58.err = true → i.target = .r58 → i ≠ .r58Clr → i ≠ .r58St →
    execFor cfg i s = .next { s with responses := s.responses ++ [⟨.eHalted, 0, 0, 0⟩] }) ∧
  (∀ (cfg : Cfg) (i : Instr) (s : State), s.bch.err = true → i.target = .bch → i ≠ .bchClr → i ≠ .bchSt →
    execFor cfg i s = .next { s with responses := s.responses ++ [⟨.eHalted, 0, 0, 0⟩] }) ∧
  (∀ s : State, s.r58.err = true → ∃ r,
    exec .r58St s = .next { s with responses := s.responses ++ [r] } ∧ r.status = .ok ∧
    r.out0.toNat / 128 = 1 ∧ r.out0.toNat / 8 % 16 = s.r58.code.toNat) ∧
  (∀ s : State, s.bch.err = true → ∃ r,
    exec .bchSt s = .next { s with responses := s.responses ++ [r] } ∧ r.status = .ok ∧
    r.out0.toNat / 128 = 1 ∧ r.out0.toNat / 8 % 16 = s.bch.code.toNat) ∧
  ∀ (cfg : Cfg) (i : Instr) (s : State), ∃ t, execFor cfg i s = .next t ∧
    (i.target ≠ .r58 → ∀ x, ∃ t', execFor cfg i { s with r58 := x } = .next t' ∧
      t'.responses = t.responses ∧ t'.r85 = t.r85 ∧ t'.bch = t.bch) ∧
    (i.target ≠ .bch → ∀ y, ∃ t', execFor cfg i { s with bch := y } = .next t' ∧
      t'.responses = t.responses ∧ t'.r85 = t.r85 ∧ t'.r58 = t.r58)

/-- R96, and of R17 what sets a flag. A flag is set only by a halting error of a command of its own unit, and cleared only
by that unit's `CLR`, by `SYS.RSTALL` or by the hardware reset, which all put the whole unit to its reset values. -/
def Obligations.FlagsChangeOnlyByHaltAndClear : Prop :=
  ∀ (cfg : Cfg) (s t : State), stepFor cfg s = .next t →
    (s.r58.err = false → t.r58.err = true → ∃ w i rest r,
      s.inputs = .command w :: rest ∧ decode w = .ok i ∧ i.target = .r58 ∧
      t.responses = s.responses ++ [r] ∧ r.status.halts = true ∧ t.r58.code = r.status.code) ∧
    (s.bch.err = false → t.bch.err = true → ∃ w i rest r,
      s.inputs = .command w :: rest ∧ decode w = .ok i ∧ i.target = .bch ∧
      t.responses = s.responses ++ [r] ∧ r.status.halts = true ∧ t.bch.code = r.status.code) ∧
    (s.r58.err = true → t.r58.err = false → t.r58 = ⟨0, 0, false, 0⟩ ∧
      ∃ x rest, s.inputs = x :: rest ∧ x ∈ [.command 0x2000, .command 0x0100, .hardwareReset]) ∧
    (s.bch.err = true → t.bch.err = false → t.bch = ⟨cfg.chkInit, .hrpHi, false, 0⟩ ∧
      ∃ x rest, s.inputs = x :: rest ∧ x ∈ [.command 0x3000, .command 0x0100, .hardwareReset])

/-- R97. A word is checked in the fixed order: decoding, then for the command the checks `Instr.checks` lists; the status
of the response is that of the first check that fails. -/
def Obligations.FirstFailedCheckIsReported : Prop :=
  ∀ (cfg : Cfg) (w : CmdWord) (s : State), ∃ t r,
    runWordFor cfg w s = .next t ∧ t.responses = s.responses ++ [r] ∧
    r.status =
      match decode w with
      | .error _ => .eIllegal
      | .ok i => (((i.checks s).find? (fun p => p.1)).map (fun p => p.2)).getD .ok

/-! ### `SYS` -/

/-- R88. -/
def Obligations.SysNopDoesNothing : Prop :=
  decode 0x0000 = .ok .sysNop ∧
  ∀ s : State, exec .sysNop s = .next { s with responses := s.responses ++ [⟨.ok, 0, 0, 0⟩] }

/-- R89. -/
def Obligations.SysRstallResetsEveryRegister : Prop :=
  decode 0x0100 = .ok .sysRstall ∧
  (∀ s : State, exec .sysRstall s = execFor Config.cfg .sysRstall s) ∧
  ∀ (cfg : Cfg) (s : State), execFor cfg .sysRstall s = .next { s with
    r85 := ⟨0, 0⟩, r58 := ⟨0, 0, false, 0⟩, bch := ⟨cfg.chkInit, .hrpHi, false, 0⟩
    responses := s.responses ++ [⟨.ok, 0, 0, 0⟩] }

/-! ### `R85` -/

/-- R54. -/
def Obligations.R85ClrDiscardsTheLeftover : Prop :=
  decode 0x1000 = .ok .r85Clr ∧
  ∀ s : State, exec .r85Clr s = .next { s with r85 := ⟨0, 0⟩, responses := s.responses ++ [⟨.ok, 0, 0, 0⟩] }

/-- R55. The symbols one push completes and the leftover it keeps, for each value of `R85.bits`. -/
def Obligations.R85PushReturnsCompletedSymbols : Prop :=
  (∀ b : Byte, decode (0x1100 ||| b.setWidth 16) = .ok (.r85Push b)) ∧
  ∀ (b : Byte) (s : State), s.r85.legal →
    let t := s.r85.rem.toNat * 256 + b.toNat
    let n := s.r85.bits.toNat + 8
    (10 ≤ n → exec (.r85Push b) s = .next { s with
      r85 := ⟨.ofNat 4 (t % 2 ^ (n - 10)), .ofNat 3 (n - 10)⟩
      responses := s.responses ++ [⟨.ok, 2, .ofNat 8 (t / 2 ^ (n - 5) % 32), .ofNat 8 (t / 2 ^ (n - 10) % 32)⟩] }) ∧
    (n < 10 → exec (.r85Push b) s = .next { s with
      r85 := ⟨.ofNat 4 (t % 2 ^ (n - 5)), .ofNat 3 (n - 5)⟩
      responses := s.responses ++ [⟨.ok, 1, .ofNat 8 (t / 2 ^ (n - 5) % 32), 0⟩] })

/-- A push loses no bit and invents none (R26, most significant bit first): the symbols returned, followed by the new
leftover, are the old leftover followed by the byte. -/
def Obligations.R85PushConservesTheBitString : Prop :=
  ∀ (b : Byte) (s : State), s.r85.legal → ∃ t r,
    exec (.r85Push b) s = .next t ∧ t.responses = s.responses ++ [r] ∧
    (r.outputs.flatMap (bitsMsb 5)) ++ bitsMsb t.r85.bits.toNat t.r85.rem.toNat =
      bitsMsb s.r85.bits.toNat s.r85.rem.toNat ++ bitsMsb 8 b.toNat

/-- R56. -/
def Obligations.R85FlushPadsTheLastSymbol : Prop :=
  decode 0x1200 = .ok .r85Flush ∧
  ∀ s : State, s.r85.legal →
    (0 < s.r85.bits.toNat → exec .r85Flush s = .next { s with
      r85 := ⟨0, 0⟩
      responses := s.responses ++ [⟨.ok, 1, .ofNat 8 (s.r85.rem.toNat * 2 ^ (5 - s.r85.bits.toNat)), 0⟩] }) ∧
    (s.r85.bits = 0 → exec .r85Flush s = .next { s with
      r85 := ⟨0, 0⟩, responses := s.responses ++ [⟨.ok, 0, 0, 0⟩] })

/-- R57. -/
def Obligations.R85StReturnsTheView : Prop :=
  decode 0x1F00 = .ok .r85St ∧
  ∀ s : State, exec .r85St s = .next { s with
    responses := s.responses ++ [⟨.ok, 2, s.r85.bits.setWidth 8, s.r85.rem.setWidth 8⟩] }

/-! ### `R58` -/

/-- R61. -/
def Obligations.R58ClrLeavesTheHaltedState : Prop :=
  decode 0x2000 = .ok .r58Clr ∧
  ∀ s : State, exec .r58Clr s = .next { s with
    r58 := ⟨0, 0, false, 0⟩, responses := s.responses ++ [⟨.ok, 0, 0, 0⟩] }

/-- R62. The halted check, the range check, and the byte a push completes, for each value of `R58.bits`. -/
def Obligations.R58PushReturnsCompletedByte : Prop :=
  (∀ v : Byte, decode (0x2100 ||| v.setWidth 16) = .ok (.r58Push v)) ∧
  (∀ (v : Byte) (s : State), s.r58.err = true →
    exec (.r58Push v) s = .next { s with responses := s.responses ++ [⟨.eHalted, 0, 0, 0⟩] }) ∧
  (∀ (v : Byte) (s : State), s.r58.err = false → 31 < v.toNat →
    exec (.r58Push v) s = .next { s with
      r58 := { s.r58 with err := true, code := 4 }, responses := s.responses ++ [⟨.eRange, 0, 0, 0⟩] }) ∧
  ∀ (v : Byte) (s : State), s.r58.legal → s.r58.err = false → v.toNat ≤ 31 →
    let t := s.r58.rem.toNat * 32 + v.toNat
    let n := s.r58.bits.toNat + 5
    (8 ≤ n → exec (.r58Push v) s = .next { s with
      r58 := { s.r58 with rem := .ofNat 7 (t % 2 ^ (n - 8)), bits := .ofNat 3 (n - 8) }
      responses := s.responses ++ [⟨.ok, 1, .ofNat 8 (t / 2 ^ (n - 8) % 256), 0⟩] }) ∧
    (n < 8 → exec (.r58Push v) s = .next { s with
      r58 := { s.r58 with rem := .ofNat 7 t, bits := .ofNat 3 n }
      responses := s.responses ++ [⟨.ok, 0, 0, 0⟩] })

/-- R63. The halted check, the two padding checks in their order, and the successful end of a call. -/
def Obligations.R58FinChecksThePadding : Prop :=
  decode 0x2200 = .ok .r58Fin ∧
  ∀ s : State,
    (s.r58.err = true →
      exec .r58Fin s = .next { s with responses := s.responses ++ [⟨.eHalted, 0, 0, 0⟩] }) ∧
    (s.r58.err = false → s.r58.rem ≠ 0 →
      exec .r58Fin s = .next { s with
        r58 := { s.r58 with err := true, code := 5 }, responses := s.responses ++ [⟨.ePadNonzero, 0, 0, 0⟩] }) ∧
    (s.r58.err = false → s.r58.rem = 0 → 5 ≤ s.r58.bits.toNat →
      exec .r58Fin s = .next { s with
        r58 := { s.r58 with err := true, code := 6 }, responses := s.responses ++ [⟨.ePadExcess, 0, 0, 0⟩] }) ∧
    (s.r58.err = false → s.r58.rem = 0 → s.r58.bits.toNat < 5 →
      exec .r58Fin s = .next { s with
        r58 := { s.r58 with bits := 0 }, responses := s.responses ++ [⟨.ok, 0, 0, 0⟩] })

/-- `R58.FIN` rejects exactly the leftovers that the reference form of the check rejects: at least 5 bits, or nonzero
once left-justified in a byte (the spec marks R66 derived; the reference form is its general knowledge, G8). -/
def Obligations.R58FinRejectsTheReferenceSet : Prop :=
  ∀ s : State, s.r58.legal → s.r58.err = false → ∃ t r,
    exec .r58Fin s = .next t ∧ t.responses = s.responses ++ [r] ∧
    (r.status ≠ .ok ↔ 5 ≤ s.r58.bits.toNat ∨ s.r58.rem.toNat * 2 ^ (8 - s.r58.bits.toNat) % 256 ≠ 0)

/-- R64. -/
def Obligations.R58StReturnsTheView : Prop :=
  decode 0x2F00 = .ok .r58St ∧
  ∀ s : State, exec .r58St s = .next { s with
    responses := s.responses ++
      [⟨.ok, 2, .ofNat 8 ((if s.r58.err then 128 else 0) + s.r58.code.toNat * 8 + s.r58.bits.toNat),
        s.r58.rem.setWidth 8⟩] }

/-! ### `BCH` -/

/-- R67. The accumulator step on integers, and its linearity over GF(2). That bit `i` selects `GEN[i]` is general
knowledge the spec supplies (log 8). -/
def Obligations.AbsorbIsTheLinearStep : Prop :=
  (∀ (cfg : Cfg) (c : Acc) (v : Sym),
    (absorb cfg c v).toNat =
      [(0, cfg.gen0), (1, cfg.gen1), (2, cfg.gen2), (3, cfg.gen3), (4, cfg.gen4)].foldl
        (fun d p => if c.toNat.testBit (25 + p.1) then d ^^^ p.2.toNat else d)
        ((c.toNat % 2 ^ 25 * 32) ^^^ v.toNat)) ∧
  (∀ (cfg : Cfg) (c c' : Acc) (v v' : Sym),
    absorb cfg (c ^^^ c') (v ^^^ v') = absorb cfg c v ^^^ absorb cfg c' v') ∧
  ∀ cfg : Cfg, absorb cfg 0 0 = 0

/-- R70. In a phase that accepts it a `BCH` command executes and leaves the phase of the table; in any other it answers
`E_SEQ` and halts the unit; `CLR` and `ST` are accepted in every phase and while halted. -/
def Obligations.PhaseTable : Prop :=
  (∀ (cfg : Cfg) (i : Instr) (s : State), i.target = .bch → s.bch.err = false → s.bch.phase ∈ i.phases → i.inRange = true →
    ∃ t r, execFor cfg i s = .next t ∧ t.responses = s.responses ++ [r] ∧ r.status = .ok ∧
      t.bch.phase = i.nextPhase s.bch.phase ∧ t.bch.err = false) ∧
  (∀ (cfg : Cfg) (i : Instr) (s : State), i.target = .bch → s.bch.err = false → s.bch.phase ∉ i.phases →
    execFor cfg i s = .next { s with
      bch := { s.bch with err := true, code := 3 }, responses := s.responses ++ [⟨.eSeq, 0, 0, 0⟩] }) ∧
  ∀ (cfg : Cfg) (i : Instr) (s : State), i = .bchClr ∨ i = .bchSt →
    ∃ t r, execFor cfg i s = .next t ∧ t.responses = s.responses ++ [r] ∧ r.status = .ok ∧
      t.bch.phase = i.nextPhase s.bch.phase

/-- The phase only moves forward, 0 to 1, 1 to 2, 1 to 3, 2 to 3, each by the command of R18's table, or back to 0 by a
clear or the hardware reset. -/
def Obligations.PhaseMovesForwardOrIsCleared : Prop :=
  ∀ (cfg : Cfg) (s t : State), stepFor cfg s = .next t → s.bch.phase ≠ t.bch.phase →
    ∃ x rest, s.inputs = x :: rest ∧
      ((t.bch.phase = .hrpHi ∧ x ∈ [.command 0x3000, .command 0x0100, .hardwareReset]) ∨
       (s.bch.phase = .hrpHi ∧ t.bch.phase = .hrpLo ∧ x = .command 0x3200) ∨
       (s.bch.phase = .hrpLo ∧ t.bch.phase = .data ∧ ∃ v : Byte, v.toNat ≤ 31 ∧
         x = .command (0x3400 ||| v.setWidth 16)) ∨
       ((s.bch.phase = .hrpLo ∨ s.bch.phase = .data) ∧ t.bch.phase = .done ∧ x = .command 0x3500))

/-- R71. -/
def Obligations.BchClrStartsACall : Prop :=
  decode 0x3000 = .ok .bchClr ∧
  (∀ s : State, exec .bchClr s = execFor Config.cfg .bchClr s) ∧
  ∀ (cfg : Cfg) (s : State), execFor cfg .bchClr s = .next { s with
    bch := ⟨cfg.chkInit, .hrpHi, false, 0⟩, responses := s.responses ++ [⟨.ok, 0, 0, 0⟩] }

/-- R72. -/
def Obligations.BchHrphAbsorbsTheHighPart : Prop :=
  (∀ c : Byte, decode (0x3100 ||| c.setWidth 16) = .ok (.bchHrph c)) ∧
  (∀ (c : Byte) (s : State), exec (.bchHrph c) s = execFor Config.cfg (.bchHrph c) s) ∧
  ∀ (cfg : Cfg) (c : Byte) (s : State),
    (s.bch.err = true →
      execFor cfg (.bchHrph c) s = .next { s with responses := s.responses ++ [⟨.eHalted, 0, 0, 0⟩] }) ∧
    (s.bch.err = false → s.bch.phase ≠ .hrpHi →
      execFor cfg (.bchHrph c) s = .next { s with
        bch := { s.bch with err := true, code := 3 }, responses := s.responses ++ [⟨.eSeq, 0, 0, 0⟩] }) ∧
    (s.bch.err = false → s.bch.phase = .hrpHi →
      execFor cfg (.bchHrph c) s = .next { s with
        bch := { s.bch with chk := absorb cfg s.bch.chk (.ofNat 5 (c.toNat / 32)) }
        responses := s.responses ++ [⟨.ok, 0, 0, 0⟩] })

/-- R73. -/
def Obligations.BchHsepAbsorbsTheSeparator : Prop :=
  decode 0x3200 = .ok .bchHsep ∧
  (∀ s : State, exec .bchHsep s = execFor Config.cfg .bchHsep s) ∧
  ∀ (cfg : Cfg) (s : State),
    (s.bch.err = true →
      execFor cfg .bchHsep s = .next { s with responses := s.responses ++ [⟨.eHalted, 0, 0, 0⟩] }) ∧
    (s.bch.err = false → s.bch.phase ≠ .hrpHi →
      execFor cfg .bchHsep s = .next { s with
        bch := { s.bch with err := true, code := 3 }, responses := s.responses ++ [⟨.eSeq, 0, 0, 0⟩] }) ∧
    (s.bch.err = false → s.bch.phase = .hrpHi →
      execFor cfg .bchHsep s = .next { s with
        bch := { s.bch with chk := absorb cfg s.bch.chk 0, phase := .hrpLo }
        responses := s.responses ++ [⟨.ok, 0, 0, 0⟩] })

/-- R74. -/
def Obligations.BchHrplAbsorbsTheLowPart : Prop :=
  (∀ c : Byte, decode (0x3300 ||| c.setWidth 16) = .ok (.bchHrpl c)) ∧
  (∀ (c : Byte) (s : State), exec (.bchHrpl c) s = execFor Config.cfg (.bchHrpl c) s) ∧
  ∀ (cfg : Cfg) (c : Byte) (s : State),
    (s.bch.err = true →
      execFor cfg (.bchHrpl c) s = .next { s with responses := s.responses ++ [⟨.eHalted, 0, 0, 0⟩] }) ∧
    (s.bch.err = false → s.bch.phase ≠ .hrpLo →
      execFor cfg (.bchHrpl c) s = .next { s with
        bch := { s.bch with err := true, code := 3 }, responses := s.responses ++ [⟨.eSeq, 0, 0, 0⟩] }) ∧
    (s.bch.err = false → s.bch.phase = .hrpLo →
      execFor cfg (.bchHrpl c) s = .next { s with
        bch := { s.bch with chk := absorb cfg s.bch.chk (.ofNat 5 (c.toNat % 32)) }
        responses := s.responses ++ [⟨.ok, 0, 0, 0⟩] })

/-- R75. -/
def Obligations.BchSymAbsorbsASymbol : Prop :=
  (∀ v : Byte, decode (0x3400 ||| v.setWidth 16) = .ok (.bchSym v)) ∧
  (∀ (v : Byte) (s : State), exec (.bchSym v) s = execFor Config.cfg (.bchSym v) s) ∧
  ∀ (cfg : Cfg) (v : Byte) (s : State),
    (s.bch.err = true →
      execFor cfg (.bchSym v) s = .next { s with responses := s.responses ++ [⟨.eHalted, 0, 0, 0⟩] }) ∧
    (s.bch.err = false → s.bch.phase ≠ .hrpLo → s.bch.phase ≠ .data →
      execFor cfg (.bchSym v) s = .next { s with
        bch := { s.bch with err := true, code := 3 }, responses := s.responses ++ [⟨.eSeq, 0, 0, 0⟩] }) ∧
    (s.bch.err = false → s.bch.phase = .hrpLo ∨ s.bch.phase = .data → 31 < v.toNat →
      execFor cfg (.bchSym v) s = .next { s with
        bch := { s.bch with err := true, code := 4 }, responses := s.responses ++ [⟨.eRange, 0, 0, 0⟩] }) ∧
    (s.bch.err = false → s.bch.phase = .hrpLo ∨ s.bch.phase = .data → v.toNat ≤ 31 →
      execFor cfg (.bchSym v) s = .next { s with
        bch := { s.bch with chk := absorb cfg s.bch.chk (.ofNat 5 v.toNat), phase := .data }
        responses := s.responses ++ [⟨.ok, 0, 0, 0⟩] })

/-- R76. -/
def Obligations.BchFinAbsorbsSixZeros : Prop :=
  decode 0x3500 = .ok .bchFin ∧
  (∀ s : State, exec .bchFin s = execFor Config.cfg .bchFin s) ∧
  ∀ (cfg : Cfg) (s : State),
    (s.bch.err = true →
      execFor cfg .bchFin s = .next { s with responses := s.responses ++ [⟨.eHalted, 0, 0, 0⟩] }) ∧
    (s.bch.err = false → s.bch.phase ≠ .hrpLo → s.bch.phase ≠ .data →
      execFor cfg .bchFin s = .next { s with
        bch := { s.bch with err := true, code := 3 }, responses := s.responses ++ [⟨.eSeq, 0, 0, 0⟩] }) ∧
    (s.bch.err = false → s.bch.phase = .hrpLo ∨ s.bch.phase = .data →
      execFor cfg .bchFin s = .next { s with
        bch := { s.bch with chk := (fun c => absorb cfg c 0)^[6] s.bch.chk, phase := .done }
        responses := s.responses ++ [⟨.ok, 0, 0, 0⟩] })

/-- R77. -/
def Obligations.BchCksumReturnsASymbol : Prop :=
  (∀ i : Byte, decode (0x3600 ||| i.setWidth 16) = .ok (.bchCksum i)) ∧
  (∀ (i : Byte) (s : State), exec (.bchCksum i) s = execFor Config.cfg (.bchCksum i) s) ∧
  ∀ (cfg : Cfg) (i : Byte) (s : State),
    (s.bch.err = true →
      execFor cfg (.bchCksum i) s = .next { s with responses := s.responses ++ [⟨.eHalted, 0, 0, 0⟩] }) ∧
    (s.bch.err = false → s.bch.phase ≠ .done →
      execFor cfg (.bchCksum i) s = .next { s with
        bch := { s.bch with err := true, code := 3 }, responses := s.responses ++ [⟨.eSeq, 0, 0, 0⟩] }) ∧
    (s.bch.err = false → s.bch.phase = .done → 5 < i.toNat →
      execFor cfg (.bchCksum i) s = .next { s with
        bch := { s.bch with err := true, code := 4 }, responses := s.responses ++ [⟨.eRange, 0, 0, 0⟩] }) ∧
    (s.bch.err = false → s.bch.phase = .done → i.toNat ≤ 5 →
      execFor cfg (.bchCksum i) s = .next { s with
        responses := s.responses ++
          [⟨.ok, 1, .ofNat 8 ((s.bch.chk ^^^ cfg.finalConst).toNat / 2 ^ (5 * (5 - i.toNat)) % 32), 0⟩] })

/-- R78. -/
def Obligations.BchVerifyTestsTheResidue : Prop :=
  decode 0x3700 = .ok .bchVerify ∧
  (∀ s : State, exec .bchVerify s = execFor Config.cfg .bchVerify s) ∧
  ∀ (cfg : Cfg) (s : State),
    (s.bch.err = true →
      execFor cfg .bchVerify s = .next { s with responses := s.responses ++ [⟨.eHalted, 0, 0, 0⟩] }) ∧
    (s.bch.err = false → s.bch.phase ≠ .data →
      execFor cfg .bchVerify s = .next { s with
        bch := { s.bch with err := true, code := 3 }, responses := s.responses ++ [⟨.eSeq, 0, 0, 0⟩] }) ∧
    (s.bch.err = false → s.bch.phase = .data → s.bch.chk = cfg.finalConst →
      execFor cfg .bchVerify s = .next { s with responses := s.responses ++ [⟨.ok, 1, 1, 0⟩] }) ∧
    (s.bch.err = false → s.bch.phase = .data → s.bch.chk ≠ cfg.finalConst →
      execFor cfg .bchVerify s = .next { s with responses := s.responses ++ [⟨.ok, 1, 0, 0⟩] })

/-- R79. -/
def Obligations.BchStReturnsTheView : Prop :=
  decode 0x3F00 = .ok .bchSt ∧
  ∀ s : State, exec .bchSt s = .next { s with
    responses := s.responses ++
      [⟨.ok, 2, .ofNat 8 ((if s.bch.err then 128 else 0) + s.bch.code.toNat * 8 + s.bch.phase.code.toNat), 0⟩] }

/-! ### `MAP` -/

/-- R25. The table is the string the rule gives, in ASCII, and its 32 codes are distinct. The codes are general knowledge
the spec supplies (G6, log 8). -/
def Obligations.CharsetIsTheString : Prop :=
  charset = "qpzry9x8gf2tvdw0s3jn54khce6mua7l".toList.map (fun c => BitVec.ofNat 8 c.toNat) ∧ charset.Nodup

/-- R84. -/
def Obligations.MapS2cReturnsTheCharacter : Prop :=
  (∀ v : Byte, decode (0x4100 ||| v.setWidth 16) = .ok (.mapS2c v)) ∧
  ∀ (v : Byte) (s : State),
    (31 < v.toNat →
      exec (.mapS2c v) s = .next { s with responses := s.responses ++ [⟨.eRange, 0, 0, 0⟩] }) ∧
    (∀ c : Byte, charset[v.toNat]? = some c →
      exec (.mapS2c v) s = .next { s with responses := s.responses ++ [⟨.ok, 1, c, 0⟩] })

/-- R86. -/
def Obligations.MapC2sReturnsTheSymbol : Prop :=
  (∀ c : Byte, decode (0x4200 ||| c.setWidth 16) = .ok (.mapC2s c)) ∧
  ∀ (c : Byte) (s : State),
    (c ∉ charset →
      exec (.mapC2s c) s = .next { s with responses := s.responses ++ [⟨.eChar, 0, 0, 0⟩] }) ∧
    (∀ k : Nat, charset[k]? = some c →
      exec (.mapC2s c) s = .next { s with responses := s.responses ++ [⟨.ok, 1, .ofNat 8 k, 0⟩] })

/-- The two commands of `MAP` are inverse to each other on exactly 32 operand values each (the spec marks R87
derived). -/
def Obligations.MapIsABijection : Prop :=
  ∀ s : State,
    (∀ v : Byte, v.toNat ≤ 31 → ∃ c,
      exec (.mapS2c v) s = .next { s with responses := s.responses ++ [⟨.ok, 1, c, 0⟩] } ∧
      exec (.mapC2s c) s = .next { s with responses := s.responses ++ [⟨.ok, 1, v, 0⟩] }) ∧
    (∀ c v : Byte, exec (.mapC2s c) s = .next { s with responses := s.responses ++ [⟨.ok, 1, v, 0⟩] } →
      exec (.mapS2c v) s = .next { s with responses := s.responses ++ [⟨.ok, 1, c, 0⟩] }) ∧
    (∃ good : List Byte, good.Nodup ∧ good.length = 32 ∧
      ∀ c, c ∈ good ↔ ∃ v, exec (.mapC2s c) s = .next { s with responses := s.responses ++ [⟨.ok, 1, v, 0⟩] }) ∧
    ∃ good : List Byte, good.Nodup ∧ good.length = 32 ∧
      ∀ v, v ∈ good ↔ ∃ c, exec (.mapS2c v) s = .next { s with responses := s.responses ++ [⟨.ok, 1, c, 0⟩] }

/-! ### Whole calls -/

/-- A `R85` call, from the cleared state or begun with `CLR`, returns `ConvertBits(bytes, 8, 5, true)` and leaves the
unit cleared (the spec marks R59 derived). -/
def Obligations.R85CallIsConvertBits : Prop :=
  ∀ (cfg : Cfg) (clr : Bool) (bytes : List Byte) (s : State), clr = true ∨ s.r85 = ⟨0, 0⟩ → ∃ rs : List Response,
    (coreFor cfg).run (r85Call clr bytes).length (s.supply (r85Call clr bytes)) =
      .next { s with r85 := ⟨0, 0⟩, responses := s.responses ++ rs } ∧
    rs.length = (r85Call clr bytes).length ∧ (∀ r ∈ rs, r.status = .ok) ∧
    convertBits (bytes.map BitVec.toNat) 8 5 true = some (outputsOf rs) ∧
    (outputsOf rs).length = (8 * bytes.length + 4) / 5 ∧ ∀ x ∈ outputsOf rs, x ≤ 31

/-- A `R58` call, from the cleared state or begun with `CLR`, on any operands: it returns
`ConvertBits(vals, 5, 8, false)` when that succeeds; it halts with `E_RANGE` at the first operand above 31; it halts at
`FIN` with a padding error when the padding is refused. In both failures the bytes already returned are the groups of
8 bits complete by then (the spec marks R65 derived). -/
def Obligations.R58CallIsConvertBits : Prop :=
  ∀ (cfg : Cfg) (clr : Bool) (vals : List Byte) (s : State), clr = true ∨ s.r58 = ⟨0, 0, false, 0⟩ →
    ∃ (t : State) (rs : List Response),
    (coreFor cfg).run (r58Call clr vals).length (s.supply (r58Call clr vals)) = .next t ∧
    t = { s with r58 := t.r58, responses := s.responses ++ rs } ∧
    (∀ out, convertBits (vals.map BitVec.toNat) 5 8 false = some out →
      t.r58 = ⟨0, 0, false, 0⟩ ∧ (∀ r ∈ rs, r.status = .ok) ∧ outputsOf rs = out ∧
      out.length = 5 * vals.length / 8) ∧
    (∀ pre v post, vals = pre ++ v :: post → (∀ x ∈ pre, x.toNat ≤ 31) → 31 < v.toNat →
      t.r58.err = true ∧ t.r58.code = 4 ∧
      rs.map Response.status =
        List.replicate ((clrIf clr .r58Clr).length + pre.length) .ok ++ [.eRange] ++
          List.replicate (post.length + 1) .eHalted ∧
      outputsOf rs = groups 8 (5 * pre.length / 8) ((pre.map BitVec.toNat).flatMap (bitsMsb 5))) ∧
    ((∀ x ∈ vals, x.toNat ≤ 31) → convertBits (vals.map BitVec.toNat) 5 8 false = none →
      ∃ e, (e = .ePadNonzero ∨ e = .ePadExcess) ∧ t.r58.err = true ∧ t.r58.code = e.code ∧
      rs.map Response.status = List.replicate ((clrIf clr .r58Clr).length + vals.length) .ok ++ [e] ∧
      outputsOf rs = groups 8 (5 * vals.length / 8) ((vals.map BitVec.toNat).flatMap (bitsMsb 5)))

/-- The bytes regrouped by a `R85` call come back from a `R58` call on its symbols, every command succeeding (the spec
marks R60 derived). -/
def Obligations.RegroupingRoundTrip : Prop :=
  ∀ (cfg : Cfg) (bytes : List Byte) (s : State), s.r85 = ⟨0, 0⟩ → s.r58 = ⟨0, 0, false, 0⟩ →
    ∃ rs qs : List Response,
      (coreFor cfg).run (r85Call false bytes).length (s.supply (r85Call false bytes)) =
        .next { s with responses := s.responses ++ rs } ∧
      let syms := (outputsOf rs).map (BitVec.ofNat 8)
      let u : State := { s with responses := s.responses ++ rs }
      (coreFor cfg).run (r58Call false syms).length (u.supply (r58Call false syms)) =
        .next { u with responses := u.responses ++ qs } ∧
      (∀ r ∈ qs, r.status = .ok) ∧ outputsOf qs = bytes.map BitVec.toNat

/-- A `BCH` compute call returns `ComputeChecksum` and a verify call returns `VerifyChecksum`, for every HRP (the empty
one too) and every parameters (the spec marks R80 derived). -/
def Obligations.BchCallsComputeAndVerify : Prop :=
  (∀ (cfg : Cfg) (clr : Bool) (hrp : List Byte) (data : List Sym) (s : State),
    clr = true ∨ s.bch = ⟨cfg.chkInit, .hrpHi, false, 0⟩ → ∃ rs : List Response,
    (coreFor cfg).run (bchComputeCall clr hrp data).length (s.supply (bchComputeCall clr hrp data)) =
      .next { s with
        bch := ⟨polymod cfg (hrpExpand hrp ++ data ++ [0, 0, 0, 0, 0, 0]), .done, false, 0⟩
        responses := s.responses ++ rs } ∧
    rs.length = (bchComputeCall clr hrp data).length ∧ (∀ r ∈ rs, r.status = .ok) ∧
    outputsOf rs = (computeChecksum cfg hrp data).map BitVec.toNat) ∧
  ∀ (cfg : Cfg) (clr : Bool) (hrp : List Byte) (syms : List Sym) (s : State),
    clr = true ∨ s.bch = ⟨cfg.chkInit, .hrpHi, false, 0⟩ → syms ≠ [] → ∃ rs : List Response,
    (coreFor cfg).run (bchVerifyCall clr hrp syms).length (s.supply (bchVerifyCall clr hrp syms)) =
      .next { s with
        bch := ⟨polymod cfg (hrpExpand hrp ++ syms), .data, false, 0⟩, responses := s.responses ++ rs } ∧
    rs.length = (bchVerifyCall clr hrp syms).length ∧ (∀ r ∈ rs, r.status = .ok) ∧
    outputsOf rs = [if verifyChecksum cfg hrp syms then 1 else 0]

/-- Computing and verifying agree for all parameters: six symbols verify exactly when they are the computed checksum (the
spec marks R81 derived). -/
def Obligations.ChecksumVerifiesExactlyWhenComputed : Prop :=
  (∀ (cfg : Cfg) (s : List Sym) (k0 k1 k2 k3 k4 k5 : Sym),
    polymod cfg (s ++ [k0, k1, k2, k3, k4, k5]) =
      polymod cfg (s ++ [0, 0, 0, 0, 0, 0]) ^^^ pack k0 k1 k2 k3 k4 k5) ∧
  ∀ (cfg : Cfg) (hrp : List Byte) (data ck : List Sym), ck.length = 6 →
    (verifyChecksum cfg hrp (data ++ ck) = true ↔ ck = computeChecksum cfg hrp data)

/-- Under the condition on the parameters of R82, absorbing zero is a bijection and changing one symbol changes the
residue, so a string that verified no longer does; the preset meets the condition (the spec marks R82 derived; the
preset is general knowledge the spec supplies, log 9). -/
def Obligations.OneSymbolChangesTheChecksum : Prop :=
  (∀ cfg : Cfg, lowIndependent cfg →
    Function.Bijective (fun c => absorb cfg c 0) ∧
    (∀ (pre post : List Sym) (x y : Sym), x ≠ y →
      polymod cfg (pre ++ x :: post) ≠ polymod cfg (pre ++ y :: post)) ∧
    ∀ (hrp : List Byte) (pre post : List Sym) (x y : Sym), x ≠ y →
      verifyChecksum cfg hrp (pre ++ x :: post) = true → verifyChecksum cfg hrp (pre ++ y :: post) = false) ∧
  lowIndependent bech32Segwit

/-- What the host's encoding of a payload produces, the host's decoding accepts (R109, the block's share of both), run
command by command, each call beginning with `CLR` and taking its operands from the responses before it. Encoding: a `R85`
call on the bytes, a `BCH` compute call on its symbols, `MAP.S2C` on the symbols and the checksum. Decoding: `MAP.C2S` on
the characters, a `BCH` verify call on all symbols, a `R58` call on all but the last six. Every command answers `OK`, the
verify call answers 1, and the bytes come back. -/
def Obligations.EncodedPayloadDecodes : Prop :=
  ∀ (cfg : Cfg) (hrp bytes : List Byte) (s : State),
    ∃ (s1 s2 s3 s4 s5 s6 : State) (data ck chars syms verdict payload : List Response),
      succeeds cfg (r85Call true bytes) s s1 data ∧
      succeeds cfg (bchComputeCall true hrp (symbolsOf data)) s1 s2 ck ∧
      succeeds cfg ((symbolsOf (data ++ ck)).map (fun v => .mapS2c (symOperand v))) s2 s3 chars ∧
      succeeds cfg (chars.map (fun r => .mapC2s r.out0)) s3 s4 syms ∧
      symbolsOf syms = symbolsOf (data ++ ck) ∧
      succeeds cfg (bchVerifyCall true hrp (symbolsOf syms)) s4 s5 verdict ∧ outputsOf verdict = [1] ∧
      succeeds cfg (r58Call true (((symbolsOf syms).take ((symbolsOf syms).length - 6)).map symOperand)) s5 s6 payload ∧
      outputsOf payload = bytes.map BitVec.toNat

/-- Commands of different units commute, and commands of `MAP` and `SYS.NOP` commute with all but `SYS.RSTALL`: the same
two responses and the same final registers in either order (the spec marks R37 derived). -/
def Obligations.CommandsOfDifferentUnitsCommute : Prop :=
  ∀ (cfg : Cfg) (a b : Instr) (s : State), a ≠ .sysRstall → b ≠ .sysRstall →
    a.target ≠ b.target ∨ a.target = .map ∨ a = .sysNop →
    ∃ (t u : State) (ra rb : Response),
      execAll cfg [a, b] s = .next t ∧ execAll cfg [b, a] s = .next u ∧
      t.responses = s.responses ++ [ra, rb] ∧ u.responses = s.responses ++ [rb, ra] ∧
      u = { t with responses := s.responses ++ [rb, ra] }

/-- Commands to other units may be interleaved anywhere in a call (R103): in any sequence of commands without
`SYS.RSTALL`, each unit ends with the registers, and its commands get the responses, that its own commands alone would
give. -/
def Obligations.OtherUnitsMayBeInterleaved : Prop :=
  ∀ (cfg : Cfg) (u : Target) (is : List Instr) (s : State), .sysRstall ∉ is → ∃ (t t' : State) (rs : List Response),
    execAll cfg is s = .next t ∧ execAll cfg (is.filter (fun i => i.target = u)) s = .next t' ∧
    t.responses = s.responses ++ rs ∧ rs.length = is.length ∧
    t'.responses = s.responses ++ ((is.zip rs).filter (fun p => p.1.target = u)).map (fun p => p.2) ∧
    sameUnit u t t'
end

