-- ==== Sys2Proof/Laws/Decode.lean ====
section
/-! SUPPORT. What a decoded word says about its fields. -/

namespace Sys2Proof

theorem noOperand_eq_ok {x : Byte} {i j : Instr} (h : noOperand x i = .ok j) : x = 0 ∧ i = j := by
  unfold noOperand at h
  split at h
  · cases h; exact ⟨‹_›, rfl⟩
  · cases h

/-- The three fields make the word (rule R40). -/
theorem cmd16_fields (w : CmdWord) : cmd16 (unitField w) (opField w) (operandField w) = w := by
  unfold cmd16 unitField opField operandField
  apply BitVec.eq_of_getLsbD_eq
  intro i hi
  have hi : i < 16 := hi
  rw [BitVec.getLsbD_append, BitVec.getLsbD_append]
  simp only [BitVec.getLsbD_extractLsb']
  rcases Nat.lt_or_ge i 8 with h | h <;> rcases Nat.lt_or_ge i 12 with h2 | h2
  · simp [h]
  · omega
  · have h1 : ¬ i < 8 := by omega
    have h3 : i - 8 < 4 := by omega
    have h4 : 8 + (i - 8) = i := by omega
    simp [*]
  · have h1 : ¬ i < 8 := by omega
    have h3 : ¬ i - 8 < 4 := by omega
    have h4 : i - 8 - 4 < 4 := by omega
    have h5 : 12 + (i - 8 - 4) = i := by omega
    simp [*]

/-- A word that decodes has the unit, the op and the operand of its command. -/
theorem decode_ok_fields {w : CmdWord} {i : Instr} (h : decode w = .ok i) :
    unitField w = i.target.unitCode ∧ opField w = i.opCode ∧ operandField w = i.operand?.getD 0 := by
  have key : ∀ {n : Nat} {v : BitVec 4}, v.toNat = n → v = BitVec.ofNat 4 n := by
    intro n v hv; subst hv; simp
  unfold decode at h
  generalize unitField w = u, opField w = o, operandField w = x at *
  split at h <;> rename_i hu
  · unfold decodeSys at h
    split at h <;> rename_i ho <;>
      first | (obtain ⟨rfl, rfl⟩ := noOperand_eq_ok h; exact ⟨key hu, key ho, rfl⟩) | cases h
  · unfold decodeR85 at h
    split at h <;> rename_i ho <;>
      first | (obtain ⟨rfl, rfl⟩ := noOperand_eq_ok h; exact ⟨key hu, key ho, rfl⟩) | (cases h; done) |
        (cases h; exact ⟨key hu, key ho, rfl⟩)
  · unfold decodeR58 at h
    split at h <;> rename_i ho <;>
      first | (obtain ⟨rfl, rfl⟩ := noOperand_eq_ok h; exact ⟨key hu, key ho, rfl⟩) | (cases h; done) |
        (cases h; exact ⟨key hu, key ho, rfl⟩)
  · unfold decodeBch at h
    split at h <;> rename_i ho <;>
      first | (obtain ⟨rfl, rfl⟩ := noOperand_eq_ok h; exact ⟨key hu, key ho, rfl⟩) | (cases h; done) |
        (cases h; exact ⟨key hu, key ho, rfl⟩)
  · unfold decodeMap at h
    split at h <;> rename_i ho <;>
      first | (cases h; done) | (cases h; exact ⟨key hu, key ho, rfl⟩)
  · cases h

/-- The word of the command a word decodes to is that word. -/
theorem encode_of_decode {w : CmdWord} {i : Instr} (h : decode w = .ok i) : encode i = w := by
  obtain ⟨hu, ho, hx⟩ := decode_ok_fields h
  rw [encode, ← hu, ← ho, ← hx, cmd16_fields]

end Sys2Proof
end

