-- ==== Sys2Proof/Laws/State.lean ====
section
/-! SUPPORT. One lemma per field of the state per update, so that no proof unfolds a record update. -/

namespace Sys2Proof.Machine

@[simp] theorem State.setR85_r85 (r : R85Regs) (s : State) : (s.setR85 r).r85 = r := rfl
@[simp] theorem State.setR85_r58 (r : R85Regs) (s : State) : (s.setR85 r).r58 = s.r58 := rfl
@[simp] theorem State.setR85_bch (r : R85Regs) (s : State) : (s.setR85 r).bch = s.bch := rfl
@[simp] theorem State.setR85_inputs (r : R85Regs) (s : State) : (s.setR85 r).inputs = s.inputs := rfl
@[simp] theorem State.setR85_responses (r : R85Regs) (s : State) : (s.setR85 r).responses = s.responses := rfl

@[simp] theorem State.setR58_r85 (r : R58Regs) (s : State) : (s.setR58 r).r85 = s.r85 := rfl
@[simp] theorem State.setR58_r58 (r : R58Regs) (s : State) : (s.setR58 r).r58 = r := rfl
@[simp] theorem State.setR58_bch (r : R58Regs) (s : State) : (s.setR58 r).bch = s.bch := rfl
@[simp] theorem State.setR58_inputs (r : R58Regs) (s : State) : (s.setR58 r).inputs = s.inputs := rfl
@[simp] theorem State.setR58_responses (r : R58Regs) (s : State) : (s.setR58 r).responses = s.responses := rfl

@[simp] theorem State.setBch_r85 (r : BchRegs) (s : State) : (s.setBch r).r85 = s.r85 := rfl
@[simp] theorem State.setBch_r58 (r : BchRegs) (s : State) : (s.setBch r).r58 = s.r58 := rfl
@[simp] theorem State.setBch_bch (r : BchRegs) (s : State) : (s.setBch r).bch = r := rfl
@[simp] theorem State.setBch_inputs (r : BchRegs) (s : State) : (s.setBch r).inputs = s.inputs := rfl
@[simp] theorem State.setBch_responses (r : BchRegs) (s : State) : (s.setBch r).responses = s.responses := rfl

@[simp] theorem State.respond_r85 (r : Response) (s : State) : (s.respond r).r85 = s.r85 := rfl
@[simp] theorem State.respond_r58 (r : Response) (s : State) : (s.respond r).r58 = s.r58 := rfl
@[simp] theorem State.respond_bch (r : Response) (s : State) : (s.respond r).bch = s.bch := rfl
@[simp] theorem State.respond_inputs (r : Response) (s : State) : (s.respond r).inputs = s.inputs := rfl
@[simp] theorem State.respond_responses (r : Response) (s : State) : (s.respond r).responses = s.responses ++ [r] := rfl

@[simp] theorem State.takeInput_r85 (rest : List HostInput) (s : State) : (s.takeInput rest).r85 = s.r85 := rfl
@[simp] theorem State.takeInput_r58 (rest : List HostInput) (s : State) : (s.takeInput rest).r58 = s.r58 := rfl
@[simp] theorem State.takeInput_bch (rest : List HostInput) (s : State) : (s.takeInput rest).bch = s.bch := rfl
@[simp] theorem State.takeInput_inputs (rest : List HostInput) (s : State) : (s.takeInput rest).inputs = rest := rfl
@[simp] theorem State.takeInput_responses (rest : List HostInput) (s : State) : (s.takeInput rest).responses = s.responses := rfl

@[simp] theorem State.clearR85_r85 (s : State) : s.clearR85.r85 = .cleared := rfl
@[simp] theorem State.clearR85_r58 (s : State) : s.clearR85.r58 = s.r58 := rfl
@[simp] theorem State.clearR85_bch (s : State) : s.clearR85.bch = s.bch := rfl
@[simp] theorem State.clearR85_inputs (s : State) : s.clearR85.inputs = s.inputs := rfl
@[simp] theorem State.clearR85_responses (s : State) : s.clearR85.responses = s.responses := rfl

@[simp] theorem State.clearR58_r85 (s : State) : s.clearR58.r85 = s.r85 := rfl
@[simp] theorem State.clearR58_r58 (s : State) : s.clearR58.r58 = .cleared := rfl
@[simp] theorem State.clearR58_bch (s : State) : s.clearR58.bch = s.bch := rfl
@[simp] theorem State.clearR58_inputs (s : State) : s.clearR58.inputs = s.inputs := rfl
@[simp] theorem State.clearR58_responses (s : State) : s.clearR58.responses = s.responses := rfl

@[simp] theorem State.clearBch_r85 (cfg : Cfg) (s : State) : (s.clearBch cfg).r85 = s.r85 := rfl
@[simp] theorem State.clearBch_r58 (cfg : Cfg) (s : State) : (s.clearBch cfg).r58 = s.r58 := rfl
@[simp] theorem State.clearBch_bch (cfg : Cfg) (s : State) : (s.clearBch cfg).bch = .cleared cfg := rfl
@[simp] theorem State.clearBch_inputs (cfg : Cfg) (s : State) : (s.clearBch cfg).inputs = s.inputs := rfl
@[simp] theorem State.clearBch_responses (cfg : Cfg) (s : State) : (s.clearBch cfg).responses = s.responses := rfl

@[simp] theorem State.clearAll_r85 (cfg : Cfg) (s : State) : (s.clearAll cfg).r85 = .cleared := rfl
@[simp] theorem State.clearAll_r58 (cfg : Cfg) (s : State) : (s.clearAll cfg).r58 = .cleared := rfl
@[simp] theorem State.clearAll_bch (cfg : Cfg) (s : State) : (s.clearAll cfg).bch = .cleared cfg := rfl
@[simp] theorem State.clearAll_inputs (cfg : Cfg) (s : State) : (s.clearAll cfg).inputs = s.inputs := rfl
@[simp] theorem State.clearAll_responses (cfg : Cfg) (s : State) : (s.clearAll cfg).responses = s.responses := rfl

@[simp] theorem State.absorbBch_r85 (cfg : Cfg) (v : List Sym) (p : Phase) (s : State) :
    (s.absorbBch cfg v p).r85 = s.r85 := rfl
@[simp] theorem State.absorbBch_r58 (cfg : Cfg) (v : List Sym) (p : Phase) (s : State) :
    (s.absorbBch cfg v p).r58 = s.r58 := rfl
@[simp] theorem State.absorbBch_bch (cfg : Cfg) (v : List Sym) (p : Phase) (s : State) :
    (s.absorbBch cfg v p).bch = { s.bch with chk := absorbAll cfg s.bch.chk v, phase := p } := rfl
@[simp] theorem State.absorbBch_inputs (cfg : Cfg) (v : List Sym) (p : Phase) (s : State) :
    (s.absorbBch cfg v p).inputs = s.inputs := rfl
@[simp] theorem State.absorbBch_responses (cfg : Cfg) (v : List Sym) (p : Phase) (s : State) :
    (s.absorbBch cfg v p).responses = s.responses := rfl

@[simp] theorem State.halt_r58_r85 (e : Status) (s : State) : (s.halt .r58 e).r85 = s.r85 := rfl
@[simp] theorem State.halt_r58_r58 (e : Status) (s : State) : (s.halt .r58 e).r58 = { s.r58 with err := true, code := e.code } := rfl
@[simp] theorem State.halt_r58_bch (e : Status) (s : State) : (s.halt .r58 e).bch = s.bch := rfl
@[simp] theorem State.halt_r58_inputs (e : Status) (s : State) : (s.halt .r58 e).inputs = s.inputs := rfl
@[simp] theorem State.halt_r58_responses (e : Status) (s : State) : (s.halt .r58 e).responses = s.responses := rfl

@[simp] theorem State.halt_bch_r85 (e : Status) (s : State) : (s.halt .bch e).r85 = s.r85 := rfl
@[simp] theorem State.halt_bch_r58 (e : Status) (s : State) : (s.halt .bch e).r58 = s.r58 := rfl
@[simp] theorem State.halt_bch_bch (e : Status) (s : State) : (s.halt .bch e).bch = { s.bch with err := true, code := e.code } := rfl
@[simp] theorem State.halt_bch_inputs (e : Status) (s : State) : (s.halt .bch e).inputs = s.inputs := rfl
@[simp] theorem State.halt_bch_responses (e : Status) (s : State) : (s.halt .bch e).responses = s.responses := rfl

end Sys2Proof.Machine
end

