-- ==== Sys2Proof/Laws/Ops.lean ====
section
/-! SUPPORT. One lemma per shared operation that says everything it can do. -/

namespace Sys2Proof.Machine

variable {s t : State} {run : Result}

@[simp] theorem answer_eq (r : Response) (s : State) :
    answer r s = .next { s with responses := s.responses ++ [r] } := rfl

@[simp] theorem raise_eq (e : Status) (s : State) :
    raise e s = .next { s with responses := s.responses ++ [⟨e, 0, 0, 0⟩] } := rfl

@[simp] theorem raiseHalt_r58 (e : Status) (s : State) :
    raiseHalt .r58 e s = .next { s with
      r58 := { s.r58 with err := true, code := e.code }, responses := s.responses ++ [⟨e, 0, 0, 0⟩] } := rfl

@[simp] theorem raiseHalt_bch (e : Status) (s : State) :
    raiseHalt .bch e s = .next { s with
      bch := { s.bch with err := true, code := e.code }, responses := s.responses ++ [⟨e, 0, 0, 0⟩] } := rfl

theorem guardR58_of_halted (h : s.r58.err = true) :
    guardR58 s run = .next { s with responses := s.responses ++ [⟨.eHalted, 0, 0, 0⟩] } := by
  simp [guardR58, h]

theorem guardR58_of_running (h : s.r58.err = false) : guardR58 s run = run := by
  simp [guardR58, h]

theorem guardBch_of_halted {ps : List Phase} (h : s.bch.err = true) :
    guardBch ps s run = .next { s with responses := s.responses ++ [⟨.eHalted, 0, 0, 0⟩] } := by
  simp [guardBch, h]

theorem guardBch_of_refused {ps : List Phase} (h : s.bch.err = false) (hp : s.bch.phase ∉ ps) :
    guardBch ps s run = .next { s with
      bch := { s.bch with err := true, code := 3 }, responses := s.responses ++ [⟨.eSeq, 0, 0, 0⟩] } := by
  simp [guardBch, h, hp, Status.code]

theorem guardBch_of_accepted {ps : List Phase} (h : s.bch.err = false) (hp : s.bch.phase ∈ ps) :
    guardBch ps s run = run := by
  simp [guardBch, h, hp]

/-- Everything the halted check of `R58` can do. -/
theorem guardR58_cases (s : State) (run : Result) :
    (s.r58.err = true ∧
      guardR58 s run = .next { s with responses := s.responses ++ [⟨.eHalted, 0, 0, 0⟩] }) ∨
    (s.r58.err = false ∧ guardR58 s run = run) := by
  cases h : s.r58.err
  · exact .inr ⟨rfl, guardR58_of_running h⟩
  · exact .inl ⟨rfl, guardR58_of_halted h⟩

/-- Everything the halted check and the phase check of `BCH` can do. -/
theorem guardBch_cases (ps : List Phase) (s : State) (run : Result) :
    (s.bch.err = true ∧
      guardBch ps s run = .next { s with responses := s.responses ++ [⟨.eHalted, 0, 0, 0⟩] }) ∨
    (s.bch.err = false ∧ s.bch.phase ∉ ps ∧ guardBch ps s run = .next { s with
      bch := { s.bch with err := true, code := 3 }, responses := s.responses ++ [⟨.eSeq, 0, 0, 0⟩] }) ∨
    (s.bch.err = false ∧ s.bch.phase ∈ ps ∧ guardBch ps s run = run) := by
  cases h : s.bch.err
  · by_cases hp : s.bch.phase ∈ ps
    · exact .inr (.inr ⟨rfl, hp, guardBch_of_accepted h hp⟩)
    · exact .inr (.inl ⟨rfl, hp, guardBch_of_refused h hp⟩)
  · exact .inl ⟨rfl, guardBch_of_halted h⟩

theorem symbol?_of_le {v : Byte} (h : v.toNat ≤ 31) : symbol? v = some (v.setWidth 5) := by
  simp [symbol?, h]

theorem symbol?_of_gt {v : Byte} (h : 31 < v.toNat) : symbol? v = none := by
  simp [symbol?, Nat.not_le.mpr h]

theorem symbol?_setWidth (v : Sym) : symbol? (v.setWidth 8) = some v := by
  revert v; decide

theorem cksumIndex?_of_le {i : Byte} (h : i.toNat ≤ 5) : cksumIndex? i = some ⟨i.toNat, by omega⟩ := by
  simp [cksumIndex?, Nat.lt_succ_of_le h]

theorem cksumIndex?_of_gt {i : Byte} (h : 5 < i.toNat) : cksumIndex? i = none := by
  have h' : ¬ i.toNat < 6 := by omega
  simp [cksumIndex?, h']

/-- The low bits by division, where the spec writes a mask. -/
theorem lowBits_eq_mod (t m : Nat) : lowBits t m = t % 2 ^ m := Nat.and_two_pow_sub_one_eq_mod t m

theorem charOf_mem_charset (v : Sym) : charset[v.toNat]? = some (charOf v) := by
  revert v; decide

theorem charsetInv_eq_none {c : Byte} (h : c ∉ charset) : charsetInv c = none := by
  rw [charsetInv, Option.map_eq_none_iff, List.findIdx?_eq_none_iff]
  intro d hd
  exact beq_false_of_ne (fun e => h (e ▸ hd))

theorem charsetInv_charOf (v : Sym) : charsetInv (charOf v) = some v := by
  revert v; decide

end Sys2Proof.Machine
end

