-- ==== Sys2Proof/Laws/Meanings.lean ====
section
/-! SUPPORT. One inversion lemma per meaning that checks something: every case it has and what it answers there. The
meanings without a check are one `answer`, which `answer_eq` opens. -/

namespace Sys2Proof.Machine

theorem execR58Push_cases (v : Byte) (s : State) :
    (s.r58.err = true ∧ execR58Push v s = raise .eHalted s) ∨
    (s.r58.err = false ∧ 31 < v.toNat ∧ execR58Push v s = raiseHalt .r58 .eRange s) ∨
    (s.r58.err = false ∧ v.toNat ≤ 31 ∧ execR58Push v s =
      answer (push58 s.r58 (v.setWidth 5)).2 (s.setR58 (push58 s.r58 (v.setWidth 5)).1)) := by
  unfold execR58Push
  cases h : s.r58.err
  · rw [guardR58_of_running h]
    by_cases hv : v.toNat ≤ 31
    · exact .inr (.inr ⟨rfl, hv, by rw [symbol?_of_le hv]⟩)
    · exact .inr (.inl ⟨rfl, Nat.lt_of_not_le hv, by rw [symbol?_of_gt (Nat.lt_of_not_le hv)]⟩)
  · exact .inl ⟨rfl, guardR58_of_halted h⟩

theorem execR58Fin_cases (s : State) :
    (s.r58.err = true ∧ execR58Fin s = raise .eHalted s) ∨
    (s.r58.err = false ∧ s.r58.rem ≠ 0 ∧ execR58Fin s = raiseHalt .r58 .ePadNonzero s) ∨
    (s.r58.err = false ∧ s.r58.rem = 0 ∧ 5 ≤ s.r58.bits.toNat ∧ execR58Fin s = raiseHalt .r58 .ePadExcess s) ∨
    (s.r58.err = false ∧ s.r58.rem = 0 ∧ s.r58.bits.toNat < 5 ∧ execR58Fin s =
      answer .ok (s.setR58 { s.r58 with bits := 0 })) := by
  unfold execR58Fin
  cases h : s.r58.err
  · rw [guardR58_of_running h]
    by_cases hr : s.r58.rem = 0
    · by_cases hb : 5 ≤ s.r58.bits.toNat
      · exact .inr (.inr (.inl ⟨rfl, hr, hb, by simp [padError?, hr, hb]⟩))
      · exact .inr (.inr (.inr ⟨rfl, hr, Nat.lt_of_not_le hb, by simp [padError?, hr, hb]⟩))
    · have hn : s.r58.rem.toNat ≠ 0 := fun e => hr (BitVec.eq_of_toNat_eq e)
      exact .inr (.inl ⟨rfl, hr, by simp [padError?, hn]⟩)
  · exact .inl ⟨rfl, guardR58_of_halted h⟩

/-- The shape of the `BCH` meanings that need one of the phases `ps` and then do `run`. -/
theorem guardBch_shape (ps : List Phase) (s : State) (run : Result) :
    (s.bch.err = true ∧ guardBch ps s run = raise .eHalted s) ∨
    (s.bch.err = false ∧ s.bch.phase ∉ ps ∧ guardBch ps s run = raiseHalt .bch .eSeq s) ∨
    (s.bch.err = false ∧ s.bch.phase ∈ ps ∧ guardBch ps s run = run) := guardBch_cases ps s run

theorem execBchHrphFor_cases (cfg : Cfg) (c : Byte) (s : State) :
    (s.bch.err = true ∧ execBchHrphFor cfg c s = raise .eHalted s) ∨
    (s.bch.err = false ∧ s.bch.phase ∉ [Phase.hrpHi] ∧ execBchHrphFor cfg c s = raiseHalt .bch .eSeq s) ∨
    (s.bch.err = false ∧ s.bch.phase ∈ [Phase.hrpHi] ∧
      execBchHrphFor cfg c s = answer .ok (s.absorbBch cfg [hrpHigh c] s.bch.phase)) := guardBch_shape _ _ _

theorem execBchHsepFor_cases (cfg : Cfg) (s : State) :
    (s.bch.err = true ∧ execBchHsepFor cfg s = raise .eHalted s) ∨
    (s.bch.err = false ∧ s.bch.phase ∉ [Phase.hrpHi] ∧ execBchHsepFor cfg s = raiseHalt .bch .eSeq s) ∨
    (s.bch.err = false ∧ s.bch.phase ∈ [Phase.hrpHi] ∧
      execBchHsepFor cfg s = answer .ok (s.absorbBch cfg [0] .hrpLo)) := guardBch_shape _ _ _

theorem execBchHrplFor_cases (cfg : Cfg) (c : Byte) (s : State) :
    (s.bch.err = true ∧ execBchHrplFor cfg c s = raise .eHalted s) ∨
    (s.bch.err = false ∧ s.bch.phase ∉ [Phase.hrpLo] ∧ execBchHrplFor cfg c s = raiseHalt .bch .eSeq s) ∨
    (s.bch.err = false ∧ s.bch.phase ∈ [Phase.hrpLo] ∧
      execBchHrplFor cfg c s = answer .ok (s.absorbBch cfg [hrpLow c] s.bch.phase)) := guardBch_shape _ _ _

theorem execBchSymFor_cases (cfg : Cfg) (v : Byte) (s : State) :
    (s.bch.err = true ∧ execBchSymFor cfg v s = raise .eHalted s) ∨
    (s.bch.err = false ∧ s.bch.phase ∉ [Phase.hrpLo, .data] ∧ execBchSymFor cfg v s = raiseHalt .bch .eSeq s) ∨
    (s.bch.err = false ∧ s.bch.phase ∈ [Phase.hrpLo, .data] ∧ 31 < v.toNat ∧
      execBchSymFor cfg v s = raiseHalt .bch .eRange s) ∨
    (s.bch.err = false ∧ s.bch.phase ∈ [Phase.hrpLo, .data] ∧ v.toNat ≤ 31 ∧
      execBchSymFor cfg v s = answer .ok (s.absorbBch cfg [v.setWidth 5] .data)) := by
  unfold execBchSymFor
  obtain h | h | ⟨h, hp, e⟩ := guardBch_shape [.hrpLo, .data] s _
  · exact .inl h
  · exact .inr (.inl h)
  · rw [e]
    by_cases hv : v.toNat ≤ 31
    · exact .inr (.inr (.inr ⟨h, hp, hv, by rw [symbol?_of_le hv]⟩))
    · exact .inr (.inr (.inl ⟨h, hp, Nat.lt_of_not_le hv, by rw [symbol?_of_gt (Nat.lt_of_not_le hv)]⟩))

theorem execBchFinFor_cases (cfg : Cfg) (s : State) :
    (s.bch.err = true ∧ execBchFinFor cfg s = raise .eHalted s) ∨
    (s.bch.err = false ∧ s.bch.phase ∉ [Phase.hrpLo, .data] ∧ execBchFinFor cfg s = raiseHalt .bch .eSeq s) ∨
    (s.bch.err = false ∧ s.bch.phase ∈ [Phase.hrpLo, .data] ∧
      execBchFinFor cfg s = answer .ok (s.absorbBch cfg sixZeros .done)) := guardBch_shape _ _ _

theorem execBchCksumFor_cases (cfg : Cfg) (i : Byte) (s : State) :
    (s.bch.err = true ∧ execBchCksumFor cfg i s = raise .eHalted s) ∨
    (s.bch.err = false ∧ s.bch.phase ∉ [Phase.done] ∧ execBchCksumFor cfg i s = raiseHalt .bch .eSeq s) ∨
    (s.bch.err = false ∧ s.bch.phase ∈ [Phase.done] ∧ 5 < i.toNat ∧
      execBchCksumFor cfg i s = raiseHalt .bch .eRange s) ∨
    (∃ h : i.toNat ≤ 5, s.bch.err = false ∧ s.bch.phase ∈ [Phase.done] ∧ execBchCksumFor cfg i s =
      answer (.ok1 ((cksumSymbol (s.bch.chk ^^^ cfg.finalConst) ⟨i.toNat, by omega⟩).setWidth 8)) s) := by
  unfold execBchCksumFor
  obtain h | h | ⟨h, hp, e⟩ := guardBch_shape [.done] s _
  · exact .inl h
  · exact .inr (.inl h)
  · rw [e]
    by_cases hi : i.toNat ≤ 5
    · exact .inr (.inr (.inr ⟨hi, h, hp, by rw [cksumIndex?_of_le hi]⟩))
    · exact .inr (.inr (.inl ⟨h, hp, Nat.lt_of_not_le hi, by rw [cksumIndex?_of_gt (Nat.lt_of_not_le hi)]⟩))

theorem execBchVerifyFor_cases (cfg : Cfg) (s : State) :
    (s.bch.err = true ∧ execBchVerifyFor cfg s = raise .eHalted s) ∨
    (s.bch.err = false ∧ s.bch.phase ∉ [Phase.data] ∧ execBchVerifyFor cfg s = raiseHalt .bch .eSeq s) ∨
    (s.bch.err = false ∧ s.bch.phase ∈ [Phase.data] ∧
      execBchVerifyFor cfg s = answer (.ok1 (if s.bch.chk = cfg.finalConst then 1 else 0)) s) := guardBch_shape _ _ _

theorem execMapS2c_cases (v : Byte) (s : State) :
    (31 < v.toNat ∧ execMapS2c v s = raise .eRange s) ∨
    (v.toNat ≤ 31 ∧ execMapS2c v s = answer (.ok1 (charOf (v.setWidth 5))) s) := by
  unfold execMapS2c
  by_cases hv : v.toNat ≤ 31
  · exact .inr ⟨hv, by rw [symbol?_of_le hv]⟩
  · exact .inl ⟨Nat.lt_of_not_le hv, by rw [symbol?_of_gt (Nat.lt_of_not_le hv)]⟩

theorem execMapC2s_cases (c : Byte) (s : State) :
    (charsetInv c = none ∧ execMapC2s c s = raise .eChar s) ∨
    (∃ x, charsetInv c = some x ∧ execMapC2s c s = answer (.ok1 (x.setWidth 8)) s) := by
  unfold execMapC2s
  cases h : charsetInv c with
  | none => exact .inl ⟨rfl, rfl⟩
  | some x => exact .inr ⟨x, rfl, rfl⟩

end Sys2Proof.Machine
end

