-- ==== Sys2Proof/Laws/PerInstr.lean ====
section
/-! SUPPORT. Per command: its word matches its row of rule R43, and its fields are the row's. -/

namespace Sys2Proof.Laws.EncodingFields

/-- The word of `i` selects the row of `i` (`w & mask = match`), and its fields are the row's unit, op and operand. -/
def Statement (i : Instr) : Prop :=
  encode i &&& i.rowMask = i.rowMatch ∧ unitField (encode i) = i.target.unitCode ∧
  opField (encode i) = i.opCode ∧ operandField (encode i) = i.operand?.getD 0

theorem sysNop : Statement .sysNop := by
  unfold Statement; decide

theorem sysRstall : Statement .sysRstall := by
  unfold Statement; decide

theorem r85Clr : Statement .r85Clr := by
  unfold Statement; decide

theorem r85Push (x : Byte) : Statement (.r85Push x) := by
  revert x; unfold Statement; decide

theorem r85Flush : Statement .r85Flush := by
  unfold Statement; decide

theorem r85St : Statement .r85St := by
  unfold Statement; decide

theorem r58Clr : Statement .r58Clr := by
  unfold Statement; decide

theorem r58Push (x : Byte) : Statement (.r58Push x) := by
  revert x; unfold Statement; decide

theorem r58Fin : Statement .r58Fin := by
  unfold Statement; decide

theorem r58St : Statement .r58St := by
  unfold Statement; decide

theorem bchClr : Statement .bchClr := by
  unfold Statement; decide

theorem bchHrph (x : Byte) : Statement (.bchHrph x) := by
  revert x; unfold Statement; decide

theorem bchHsep : Statement .bchHsep := by
  unfold Statement; decide

theorem bchHrpl (x : Byte) : Statement (.bchHrpl x) := by
  revert x; unfold Statement; decide

theorem bchSym (x : Byte) : Statement (.bchSym x) := by
  revert x; unfold Statement; decide

theorem bchFin : Statement .bchFin := by
  unfold Statement; decide

theorem bchCksum (x : Byte) : Statement (.bchCksum x) := by
  revert x; unfold Statement; decide

theorem bchVerify : Statement .bchVerify := by
  unfold Statement; decide

theorem bchSt : Statement .bchSt := by
  unfold Statement; decide

theorem mapS2c (x : Byte) : Statement (.mapS2c x) := by
  revert x; unfold Statement; decide

theorem mapC2s (x : Byte) : Statement (.mapC2s x) := by
  revert x; unfold Statement; decide

end Sys2Proof.Laws.EncodingFields
end

