-- ==== Sys2Proof/Laws/Step.lean ====
section
/-! SUPPORT. Everything one step can do: wait, reset, refuse a reserved word, or run the decoded command. -/

namespace Sys2Proof.Machine

theorem stepBy_cases {cfg : Cfg} {run : Instr → State → Result} {s t : State} (h : stepBy cfg run s = .next t) :
    (s.inputs = [] ∧ t = s) ∨
    (∃ rest, s.inputs = .hardwareReset :: rest ∧ t = (s.takeInput rest).clearAll cfg) ∨
    (∃ w rest e, s.inputs = .command w :: rest ∧ decode w = .error e ∧
      t = (s.takeInput rest).respond (.error .eIllegal)) ∨
    (∃ w rest i, s.inputs = .command w :: rest ∧ decode w = .ok i ∧ run i (s.takeInput rest) = .next t) := by
  unfold stepBy at h
  cases hi : s.inputs with
  | nil => rw [hi] at h; cases h; exact .inl ⟨rfl, rfl⟩
  | cons x rest =>
    rw [hi] at h
    cases x with
    | hardwareReset => cases h; exact .inr (.inl ⟨rest, rfl, rfl⟩)
    | command w =>
      simp only [runWordBy] at h
      cases hd : decode w with
      | ok i => rw [hd] at h; exact .inr (.inr (.inr ⟨w, rest, i, rfl, hd, h⟩))
      | error e => rw [hd] at h; cases h; exact .inr (.inr (.inl ⟨w, rest, e, rfl, hd, rfl⟩))

end Sys2Proof.Machine
end

