-- ==== Sys2Proof/Laws/Units.lean ====
section
/-! SUPPORT. One inversion lemma per unit that can halt: everything a command of that unit can do. -/

namespace Sys2Proof.Machine

/-- Everything a command of `R58` can do: refuse while halted, halt with one of its errors, or execute. -/
theorem execFor_r58_cases (cfg : Cfg) (i : Instr) (s : State) (hi : i.target = .r58) :
    (s.r58.err = true ∧ i ≠ .r58Clr ∧ i ≠ .r58St ∧ execFor cfg i s = raise .eHalted s) ∨
    (s.r58.err = false ∧ ∃ e, e ∈ [Status.eRange, .ePadNonzero, .ePadExcess] ∧
      execFor cfg i s = raiseHalt .r58 e s) ∨
    (∃ y r, r.status = .ok ∧
      execFor cfg i s = .next { s with r58 := y, responses := s.responses ++ [r] } ∧
      y.err = if i = .r58Clr then false else s.r58.err) := by
  cases i <;> simp [Instr.target] at hi
  case r58Clr => exact .inr (.inr ⟨_, _, rfl, rfl, rfl⟩)
  case r58St => exact .inr (.inr ⟨s.r58, .ok2 s.r58.view0 s.r58.view1, rfl, rfl, rfl⟩)
  case r58Push v =>
    obtain ⟨h, e⟩ | ⟨h, _, e⟩ | ⟨h, _, e⟩ := execR58Push_cases v s
    · exact .inl ⟨h, by simp, by simp, e⟩
    · exact .inr (.inl ⟨h, .eRange, by simp, e⟩)
    · refine .inr (.inr ⟨_, _, ?_, e, ?_⟩) <;> simp only [push58] <;> split <;> rfl
  case r58Fin =>
    obtain ⟨h, e⟩ | ⟨h, _, e⟩ | ⟨h, _, _, e⟩ | ⟨h, _, _, e⟩ := execR58Fin_cases s
    · exact .inl ⟨h, by simp, by simp, e⟩
    · exact .inr (.inl ⟨h, .ePadNonzero, by simp, e⟩)
    · exact .inr (.inl ⟨h, .ePadExcess, by simp, e⟩)
    · exact .inr (.inr ⟨_, _, rfl, e, rfl⟩)

theorem mem_all (p : Phase) : p ∈ [Phase.hrpHi, .hrpLo, .data, .done] := by
  cases p <;> decide

/-- Everything a command of `BCH` can do: refuse while halted, halt with `E_SEQ` or `E_RANGE`, or execute. -/
theorem execFor_bch_cases (cfg : Cfg) (i : Instr) (s : State) (hi : i.target = .bch) :
    (s.bch.err = true ∧ i ≠ .bchClr ∧ i ≠ .bchSt ∧ execFor cfg i s = raise .eHalted s) ∨
    (s.bch.err = false ∧ s.bch.phase ∉ i.phases ∧ execFor cfg i s = raiseHalt .bch .eSeq s) ∨
    (s.bch.err = false ∧ s.bch.phase ∈ i.phases ∧ i.inRange = false ∧
      execFor cfg i s = raiseHalt .bch .eRange s) ∨
    (((i = .bchClr ∨ i = .bchSt) ∨ s.bch.err = false) ∧ i.inRange = true ∧ s.bch.phase ∈ i.phases ∧
      ∃ y r, r.status = .ok ∧
      execFor cfg i s = .next { s with bch := y, responses := s.responses ++ [r] } ∧
      y.err = (if i = .bchClr then false else s.bch.err) ∧
      y.code = (if i = .bchClr then 0 else s.bch.code) ∧ y.phase = i.nextPhase s.bch.phase ∧
      ((∃ k, i = .bchCksum k) ∨ i = .bchVerify ∨ i = .bchSt → y = s.bch)) := by
  cases i <;> simp [Instr.target] at hi
  case bchClr => exact .inr (.inr (.inr ⟨.inl (.inl rfl), rfl, mem_all _, _, _, rfl, rfl, rfl, rfl, rfl, by simp⟩))
  case bchSt => exact .inr (.inr (.inr ⟨.inl (.inr rfl), rfl, mem_all _, s.bch, .ok2 s.bch.view0 0, rfl, rfl, rfl, rfl, rfl, by simp⟩))
  case bchHrph c =>
    obtain ⟨h, e⟩ | ⟨h, h2, e⟩ | ⟨h, h2, e⟩ := execBchHrphFor_cases cfg c s
    · exact .inl ⟨h, by simp, by simp, e⟩
    · exact .inr (.inl ⟨h, h2, e⟩)
    · exact .inr (.inr (.inr ⟨.inr h, rfl, h2, _, _, rfl, e, rfl, rfl, rfl, by simp⟩))
  case bchHrpl c =>
    obtain ⟨h, e⟩ | ⟨h, h2, e⟩ | ⟨h, h2, e⟩ := execBchHrplFor_cases cfg c s
    · exact .inl ⟨h, by simp, by simp, e⟩
    · exact .inr (.inl ⟨h, h2, e⟩)
    · exact .inr (.inr (.inr ⟨.inr h, rfl, h2, _, _, rfl, e, rfl, rfl, rfl, by simp⟩))
  case bchHsep =>
    obtain ⟨h, e⟩ | ⟨h, h2, e⟩ | ⟨h, h2, e⟩ := execBchHsepFor_cases cfg s
    · exact .inl ⟨h, by simp, by simp, e⟩
    · exact .inr (.inl ⟨h, h2, e⟩)
    · exact .inr (.inr (.inr ⟨.inr h, rfl, h2, _, _, rfl, e, rfl, rfl, rfl, by simp⟩))
  case bchFin =>
    obtain ⟨h, e⟩ | ⟨h, h2, e⟩ | ⟨h, h2, e⟩ := execBchFinFor_cases cfg s
    · exact .inl ⟨h, by simp, by simp, e⟩
    · exact .inr (.inl ⟨h, h2, e⟩)
    · exact .inr (.inr (.inr ⟨.inr h, rfl, h2, _, _, rfl, e, rfl, rfl, rfl, by simp⟩))
  case bchVerify =>
    obtain ⟨h, e⟩ | ⟨h, h2, e⟩ | ⟨h, h2, e⟩ := execBchVerifyFor_cases cfg s
    · exact .inl ⟨h, by simp, by simp, e⟩
    · exact .inr (.inl ⟨h, h2, e⟩)
    · exact .inr (.inr (.inr ⟨.inr h, rfl, h2, s.bch, _, rfl, e, rfl, rfl, rfl, by simp⟩))
  case bchSym v =>
    obtain ⟨h, e⟩ | ⟨h, h2, e⟩ | ⟨h, h2, h3, e⟩ | ⟨h, h2, h3, e⟩ := execBchSymFor_cases cfg v s
    · exact .inl ⟨h, by simp, by simp, e⟩
    · exact .inr (.inl ⟨h, h2, e⟩)
    · exact .inr (.inr (.inl ⟨h, h2, by simp [Instr.inRange]; omega, e⟩))
    · exact .inr (.inr (.inr ⟨.inr h, by simp [Instr.inRange]; omega, h2, _, _, rfl, e, rfl, rfl, rfl, by simp⟩))
  case bchCksum v =>
    obtain ⟨h, e⟩ | ⟨h, h2, e⟩ | ⟨h, h2, h3, e⟩ | ⟨h0, h, h2, e⟩ := execBchCksumFor_cases cfg v s
    · exact .inl ⟨h, by simp, by simp, e⟩
    · exact .inr (.inl ⟨h, h2, e⟩)
    · exact .inr (.inr (.inl ⟨h, h2, by simp [Instr.inRange]; omega, e⟩))
    · exact .inr (.inr (.inr ⟨.inr h, by simp [Instr.inRange]; omega, h2, s.bch, _, rfl, e, rfl, rfl, rfl, by simp⟩))

end Sys2Proof.Machine
end

