-- ==== Sys2Proof/Tests/Slice0.lean ====
section
/-! SUPPORT. Tests. Expected values are the spec's own: the encodings of R43 and R49, and the "Example" lines of the command
rules R54 to R89. The `witness_` theorems show states and operands that meet the hypotheses of the statements of
Certificates/Slice0/Obligations.lean, clause by clause at the boundaries. -/

open Sys2Proof Sys2Proof.Machine

namespace Sys2Proof.Tests

/-- A small state: the preset parameters, every register cleared. -/
def start : State := State.resetFor bech32Segwit

def with85 (rem : BitVec 4) (bits : BitVec 3) : State := start.setR85 ⟨rem, bits⟩

def with58 (rem : BitVec 7) (bits : BitVec 3) (err : Bool) (code : BitVec 4) : State :=
  start.setR58 ⟨rem, bits, err, code⟩

def withBch (chk : Acc) (phase : Phase) (err : Bool) (code : BitVec 4) : State :=
  start.setBch ⟨chk, phase, err, code⟩

/-- The next state of a command, in a block with the preset parameters. -/
def after (i : Instr) (s : State) : Option State :=
  match execFor bech32Segwit i s with
  | .next t => some t
  | .fault _ => none
  | .refused _ => none

/-- The next state of a step of that block. -/
def afterStep (s : State) : Option State :=
  match stepFor bech32Segwit s with
  | .next t => some t
  | .fault _ => none
  | .refused _ => none

/-- The responses of a sequence of commands from `s`. -/
def answers (is : List Instr) (s : State) : Option (List Response) :=
  match execAll bech32Segwit is s with
  | .next t => some t.responses
  | .fault _ => none
  | .refused _ => none

/-! ### Decoding: a word for every constructor, bit by bit from R40, R41, R43 -/

theorem test_decode_sysNop : decode 0b0000_0000_00000000 = .ok .sysNop := by decide
theorem test_decode_sysRstall : decode 0b0000_0001_00000000 = .ok .sysRstall := by decide
theorem test_decode_r85Clr : decode 0b0001_0000_00000000 = .ok .r85Clr := by decide
theorem test_decode_r85Push : decode 0b0001_0001_10100101 = .ok (.r85Push 0xa5) := by decide
theorem test_decode_r85Flush : decode 0b0001_0010_00000000 = .ok .r85Flush := by decide
theorem test_decode_r85St : decode 0b0001_1111_00000000 = .ok .r85St := by decide
theorem test_decode_r58Clr : decode 0b0010_0000_00000000 = .ok .r58Clr := by decide
theorem test_decode_r58Push : decode 0b0010_0001_11110001 = .ok (.r58Push 0xf1) := by decide
theorem test_decode_r58Fin : decode 0b0010_0010_00000000 = .ok .r58Fin := by decide
theorem test_decode_r58St : decode 0b0010_1111_00000000 = .ok .r58St := by decide
theorem test_decode_bchClr : decode 0b0011_0000_00000000 = .ok .bchClr := by decide
theorem test_decode_bchHrph : decode 0b0011_0001_01100001 = .ok (.bchHrph 0x61) := by decide
theorem test_decode_bchHsep : decode 0b0011_0010_00000000 = .ok .bchHsep := by decide
theorem test_decode_bchHrpl : decode 0b0011_0011_01100010 = .ok (.bchHrpl 0x62) := by decide
theorem test_decode_bchSym : decode 0b0011_0100_00011111 = .ok (.bchSym 31) := by decide
theorem test_decode_bchFin : decode 0b0011_0101_00000000 = .ok .bchFin := by decide
theorem test_decode_bchCksum : decode 0b0011_0110_00000101 = .ok (.bchCksum 5) := by decide
theorem test_decode_bchVerify : decode 0b0011_0111_00000000 = .ok .bchVerify := by decide
theorem test_decode_bchSt : decode 0b0011_1111_00000000 = .ok .bchSt := by decide
theorem test_decode_mapS2c : decode 0b0100_0001_00001010 = .ok (.mapS2c 10) := by decide
theorem test_decode_mapC2s : decode 0b0100_0010_01101100 = .ok (.mapC2s 0x6c) := by decide

/-! ### Reserved words, rejected by name (R46) -/

theorem test_reserved_unit : decode 0x5000 = .error .reservedUnit ∧ decode 0xFFFF = .error .reservedUnit := by decide
theorem test_reserved_op : [(0x0200 : CmdWord), 0x0F00, 0x1300, 0x1E00, 0x2300, 0x2E00, 0x3800, 0x3E00, 0x4000, 0x4300,
    0x4F00].all (fun w => decode w = .error .reservedOp) := by decide
theorem test_reserved_operand : [(0x0001 : CmdWord), 0x01FF, 0x1080, 0x1201, 0x1F01, 0x2001, 0x2201, 0x2F80, 0x3001,
    0x3201, 0x3501, 0x3701, 0x3FFF].all (fun w => decode w = .error .operandNotZero) := by decide

/-! ### Ill-formed operands: they decode (R44), and the check refuses them -/

theorem test_range_r58Push : (Instr.r58Push 32).inRange = false ∧ (Instr.r58Push 31).inRange = true := by decide
theorem test_range_bchSym : (Instr.bchSym 255).inRange = false ∧ (Instr.bchSym 31).inRange = true := by decide
theorem test_range_mapS2c : (Instr.mapS2c 32).inRange = false ∧ (Instr.mapS2c 31).inRange = true := by decide
theorem test_range_bchCksum : (Instr.bchCksum 6).inRange = false ∧ (Instr.bchCksum 5).inRange = true := by decide

/-! ### One command each (the examples of the rules) -/

theorem test_sysNop : after .sysNop (with85 7 3) =
    some { with85 7 3 with responses := [⟨.ok, 0, 0, 0⟩] } := by decide
theorem test_sysRstall : (after .sysRstall ((with58 1 2 true 5).setBch ⟨0x15ccfe9e, .done, false, 0⟩)).map
    (fun t => (t.r58, t.bch)) = some (⟨0, 0, false, 0⟩, ⟨1, .hrpHi, false, 0⟩) := by decide
theorem test_r85Clr : after .r85Clr (with85 7 3) = some { start with responses := [⟨.ok, 0, 0, 0⟩] } := by decide
theorem test_r85Push : after (.r85Push 0xff) start =
    some { with85 7 3 with responses := [⟨.ok, 1, 0x1f, 0⟩] } := by decide
/-- R55's case table, row `R85.bits` = 4: `t = 0xfa5`, symbols `t[11:7]` and `t[6:2]`, leftover `t[1:0]`. -/
theorem test_r85Push_two : after (.r85Push 0xa5) (with85 0xf 4) =
    some { with85 1 2 with responses := [⟨.ok, 2, 31, 9⟩] } := by decide
theorem test_r85Flush : after .r85Flush (with85 7 3) =
    some { start with responses := [⟨.ok, 1, 0x1c, 0⟩] } := by decide
theorem test_r85Flush_empty : after .r85Flush start = some { start with responses := [⟨.ok, 0, 0, 0⟩] } := by decide
theorem test_r85St : after .r85St (with85 7 3) =
    some { with85 7 3 with responses := [⟨.ok, 2, 0x03, 0x07⟩] } := by decide
theorem test_r58Clr : after .r58Clr (with58 1 2 true 5) =
    some { start with responses := [⟨.ok, 0, 0, 0⟩] } := by decide
theorem test_r58Push : after (.r58Push 28) (with58 31 5 false 0) =
    some { with58 0 2 false 0 with responses := [⟨.ok, 1, 0xff, 0⟩] } := by decide
theorem test_r58Push_range : after (.r58Push 32) (with58 31 5 false 0) =
    some { with58 31 5 true 4 with responses := [⟨.eRange, 0, 0, 0⟩] } := by decide
theorem test_r58Fin_nonzero : after .r58Fin (with58 1 2 false 0) =
    some { with58 1 2 true 5 with responses := [⟨.ePadNonzero, 0, 0, 0⟩] } := by decide
theorem test_r58Fin_excess : after .r58Fin (with58 0 5 false 0) =
    some { with58 0 5 true 6 with responses := [⟨.ePadExcess, 0, 0, 0⟩] } := by decide
theorem test_r58St : after .r58St (with58 1 2 true 5) =
    some { with58 1 2 true 5 with responses := [⟨.ok, 2, 0xaa, 0x01⟩] } := by decide
theorem test_bchClr : after .bchClr (withBch 0x15ccfe9e .done true 3) =
    some { start with responses := [⟨.ok, 0, 0, 0⟩] } := by decide
theorem test_bchHrph : after (.bchHrph 0x61) start =
    some { withBch 0x23 .hrpHi false 0 with responses := [⟨.ok, 0, 0, 0⟩] } := by decide
theorem test_bchHsep : after .bchHsep (withBch 0x23 .hrpHi false 0) =
    some { withBch 0x460 .hrpLo false 0 with responses := [⟨.ok, 0, 0, 0⟩] } := by decide
theorem test_bchHrpl : after (.bchHrpl 0x61) (withBch 0x460 .hrpLo false 0) =
    some { withBch 0x8c01 .hrpLo false 0 with responses := [⟨.ok, 0, 0, 0⟩] } := by decide
theorem test_bchSym : after (.bchSym 31) (withBch 0x8c01 .hrpLo false 0) =
    some { withBch 0x0011803f .data false 0 with responses := [⟨.ok, 0, 0, 0⟩] } := by decide
/-- R97: when the phase and the value are both wrong, `E_SEQ` is reported. -/
theorem test_bchSym_order : after (.bchSym 32) start =
    some { withBch 1 .hrpHi true 3 with responses := [⟨.eSeq, 0, 0, 0⟩] } := by decide
theorem test_bchFin : after .bchFin (withBch 0x8c01 .hrpLo false 0) =
    some { withBch 0x15ccfe9e .done false 0 with responses := [⟨.ok, 0, 0, 0⟩] } := by decide
theorem test_bchCksum : [0, 1, 2, 3, 4, 5].map
      (fun k => (after (.bchCksum k) (withBch 0x15ccfe9e .done false 0)).map (fun t => t.responses)) =
    [10, 28, 25, 31, 20, 31].map (fun v => some [⟨.ok, 1, v, 0⟩]) := by decide
theorem test_bchCksum_range : after (.bchCksum 6) (withBch 0x15ccfe9e .done false 0) =
    some { withBch 0x15ccfe9e .done true 4 with responses := [⟨.eRange, 0, 0, 0⟩] } := by decide
theorem test_bchVerify : after .bchVerify (withBch 1 .data false 0) =
    some { withBch 1 .data false 0 with responses := [⟨.ok, 1, 1, 0⟩] } := by decide
theorem test_bchVerify_fails : after .bchVerify (withBch 0 .data false 0) =
    some { withBch 0 .data false 0 with responses := [⟨.ok, 1, 0, 0⟩] } := by decide
theorem test_bchSt : after .bchSt (withBch 1 .hrpHi true 3) =
    some { withBch 1 .hrpHi true 3 with responses := [⟨.ok, 2, 0x98, 0⟩] } := by decide
theorem test_mapS2c : after (.mapS2c 10) start = some { start with responses := [⟨.ok, 1, 0x32, 0⟩] } := by decide
theorem test_mapS2c_range : after (.mapS2c 32) start =
    some { start with responses := [⟨.eRange, 0, 0, 0⟩] } := by decide
theorem test_mapC2s : after (.mapC2s 0x6c) start = some { start with responses := [⟨.ok, 1, 0x1f, 0⟩] } := by decide
theorem test_mapC2s_char : after (.mapC2s 0x62) start =
    some { start with responses := [⟨.eChar, 0, 0, 0⟩] } := by decide

/-! ### The step, the text, the functions -/

theorem test_step_reserved : afterStep ((with58 1 2 true 5).supplyWord 0x2201) =
    some { with58 1 2 true 5 with responses := [⟨.eIllegal, 0, 0, 0⟩] } := by decide
theorem test_step_reset : afterStep { with58 1 2 true 5 with inputs := [.hardwareReset] } = some start := by decide
theorem test_withFetchWord : afterStep (start.withFetchWord 16 0x11FF) =
    some { with85 7 3 with responses := [⟨.ok, 1, 0x1f, 0⟩] } := by decide
/-- The block itself, its parameters open. -/
theorem test_withFetchWord_block : step (State.reset.withFetchWord 16 0x11FF) = .next
    { State.reset with r85 := ⟨7, 3⟩, responses := [⟨.ok, 1, 0x1f, 0⟩] } := rfl
theorem test_decodeTableWord : decodeTableWord 16 0x3605 = some (.bchCksum 5) ∧ decodeTableWord 16 0x4000 = none := by
  decide
theorem test_encode : encode (.bchHrph 0x61) = 0x3161 ∧ encode .bchHsep = 0x3200 := by decide
/-- R56: the call `[0xff]` produces `[31, 28]`. -/
theorem test_convertBits : convertBits [0xff] 8 5 true = some [31, 28] ∧ convertBits [31, 28] 5 8 false = some [255] ∧
    convertBits [31, 29] 5 8 false = none ∧ convertBits [0] 5 8 false = none := by decide
/-- R78's example: the string `a1lu9cgf6y`. -/
theorem test_verifyChecksum :
    verifyChecksum bech32Segwit [0x61] [31, 28, 5, 24, 8, 9, 26, 4] = true ∧
    verifyChecksum bech32Segwit [0x61] [31, 28, 5, 24, 8, 9, 26, 5] = false := by decide
/-- R77's example. -/
theorem test_computeChecksum : computeChecksum bech32Segwit [0x61] [] = [10, 28, 25, 31, 20, 31] := by decide
/-- R50: a pseudo-instruction expands to its commands. -/
theorem test_pseudo : assembleLine "BCH.HRP \"ab\" ; the prefix".toList =
    some [.bchHrph 0x61, .bchHrph 0x62, .bchHsep, .bchHrpl 0x61, .bchHrpl 0x62] := by decide
theorem test_pseudo_values : assembleLine "R85.BYTES 0xff, 7".toList = some [.r85Push 255, .r85Push 7] := by decide

/-! ### Witnesses: the hypotheses of the statements can be met -/

theorem witness_ResetRegistersHoldTheirResetValues :
    (State.reset = State.reset ∧ Config.cfg = Config.cfg) ∧ start = State.resetFor bech32Segwit := ⟨⟨rfl, rfl⟩, rfl⟩
theorem witness_ResetEventsClearRegisters :
    ({ with85 7 3 with inputs := [.hardwareReset] } : State).inputs = .hardwareReset :: [] := by decide
theorem witness_EveryStepKeepsLegal :
    ((with85 15 4).supplyWord 0x11a5).legal ∧ (afterStep ((with85 15 4).supplyWord 0x11a5)).isSome = true := by decide
theorem witness_StepRunsTheDecodedCommand :
    (start.supplyWord 0x31ff).inputs = .command 0x31ff :: [] ∧ decode 0x31ff = .ok (.bchHrph 0xff) := by decide
theorem witness_EveryStepAnswersOrWaits : start.inputs = [] := by decide
theorem witness_WordSelectsItsRow : decode 0x1142 = .ok (.r85Push 0x42) ∧ (Instr.r85Push 0x42).operand? = some 0x42 := by
  decide
theorem witness_ReservedWordsAnswerIllegal :
    ((with58 1 2 true 5).supplyWord 0x2201).inputs = .command 0x2201 :: [] ∧
    decode 0x2201 = .error .operandNotZero := by decide
theorem witness_EveryWordReturnsOneLawfulResponse :
    (start.supplyWord 0).r85 = start.r85 ∧
    (start.supplyWord 0).r58 = start.r58 ∧ (start.supplyWord 0).bch = start.bch ∧ start.supplyWord 0 ≠ start := by decide
theorem witness_UnitsShareNoRegister :
    Instr.bchFin ≠ .sysRstall ∧ Instr.bchFin.target ≠ .r85 ∧ Instr.bchFin.target ≠ .r58 ∧ Instr.r58Fin.target ≠ .bch ∧
    sameUnit Instr.bchFin.target start (with85 7 3) :=
  ⟨by decide, by decide, by decide, by decide, rfl⟩
theorem witness_ReadsHaveNoSideEffect :
    Instr.bchSt.readOnly = true ∧
    (after .bchVerify (withBch 1 .data false 0)).map (fun t => t.responses.map Response.status) = some [.ok] ∧
    (after (.bchCksum 5) (withBch 1 .done false 0)).map (fun t => t.responses.map Response.status) = some [.ok] ∧
    ((after .r58Clr (with58 1 2 true 5)).bind (after .r58Clr)).isSome = true := by decide
theorem witness_FailedCommandWritesOnlyTheHalt :
    (after .r58Fin (with58 1 2 false 0)).map (fun t => t.responses.map Response.status) = some [.ePadNonzero] ∧
    (after (.bchSym 32) (withBch 1 .data false 0)).map (fun t => t.responses.map Response.status) = some [.eRange] ∧
    (after .bchFin (withBch 1 .data true 4)).map (fun t => t.responses.map Response.status) = some [.eHalted] ∧
    (after (.mapS2c 32) start).map (fun t => t.responses.map Response.status) = some [.eRange] ∧
    Status.ePadNonzero.halts = true ∧ Status.eRange.halts = true ∧ Status.eHalted.halts = false ∧
    decode 0x4000 = .error .reservedOp := by decide
theorem witness_HaltedUnitRefuses :
    (with58 1 2 true 5).r58.err = true ∧ (Instr.r58Push 0).target = .r58 ∧ Instr.r58Push 0 ≠ .r58Clr ∧
    Instr.r58Push 0 ≠ .r58St ∧ (withBch 1 .data true 4).bch.err = true ∧ Instr.bchVerify.target = .bch ∧
    Instr.bchVerify ≠ .bchClr ∧ Instr.bchVerify ≠ .bchSt := by decide
theorem witness_FlagsChangeOnlyByHaltAndClear :
    (afterStep ((with58 1 2 false 0).supplyWord 0x2200)).map (fun t => t.r58.err) = some true ∧
    (afterStep (start.supplyWord 0x3700)).map (fun t => t.bch.err) = some true ∧
    (afterStep ((with58 1 2 true 5).supplyWord 0x2000)).map (fun t => t.r58.err) = some false ∧
    (afterStep ((withBch 9 .done true 3).supplyWord 0x0100)).map (fun t => t.bch.err) = some false := by decide
theorem witness_R85PushReturnsCompletedSymbols :
    (with85 1 1).r85.legal ∧ (with85 1 1).r85.bits.toNat + 8 < 10 ∧
    (with85 3 2).r85.legal ∧ 10 ≤ (with85 3 2).r85.bits.toNat + 8 ∧ (with85 15 4).r85.legal := by decide
theorem witness_R85PushConservesTheBitString : (with85 15 4).r85.legal := by decide
theorem witness_R85FlushPadsTheLastSymbol :
    (with85 15 4).r85.legal ∧ 0 < (with85 15 4).r85.bits.toNat ∧ start.r85.legal ∧ start.r85.bits = 0 := by decide
theorem witness_R58PushReturnsCompletedByte :
    (with58 1 2 true 5).r58.err = true ∧ 31 < (32 : Byte).toNat ∧ (31 : Byte).toNat ≤ 31 ∧
    (with58 3 2 false 0).r58.legal ∧ (with58 3 2 false 0).r58.err = false ∧ (with58 3 2 false 0).r58.bits.toNat + 5 < 8 ∧
    (with58 7 3 false 0).r58.legal ∧ (with58 7 3 false 0).r58.err = false ∧
    8 ≤ (with58 7 3 false 0).r58.bits.toNat + 5 := by decide
theorem witness_R58FinChecksThePadding :
    (with58 1 2 true 5).r58.err = true ∧ (with58 1 7 false 0).r58.err = false ∧ (with58 1 7 false 0).r58.rem ≠ 0 ∧
    (with58 0 5 false 0).r58.rem = 0 ∧ 5 ≤ (with58 0 5 false 0).r58.bits.toNat ∧
    (with58 0 4 false 0).r58.rem = 0 ∧ (with58 0 4 false 0).r58.bits.toNat < 5 := by decide
theorem witness_R58FinRejectsTheReferenceSet :
    (with58 8 4 false 0).r58.legal ∧ (with58 8 4 false 0).r58.err = false := by decide
theorem witness_PhaseTable :
    (Instr.bchSym 31).target = .bch ∧ (withBch 1 .data false 0).bch.err = false ∧
    (withBch 1 .data false 0).bch.phase ∈ (Instr.bchSym 31).phases ∧ (Instr.bchSym 31).inRange = true ∧
    (withBch 1 .done false 0).bch.err = false ∧ (withBch 1 .done false 0).bch.phase ∉ (Instr.bchSym 31).phases := by decide
theorem witness_PhaseMovesForwardOrIsCleared :
    (afterStep (start.supplyWord 0x3200)).map (fun t => t.bch.phase) = some .hrpLo ∧
    (afterStep ((withBch 1 .hrpLo false 0).supplyWord 0x341f)).map (fun t => t.bch.phase) = some .data ∧
    (afterStep ((withBch 1 .data false 0).supplyWord 0x3500)).map (fun t => t.bch.phase) = some .done ∧
    (afterStep ((withBch 1 .done false 0).supplyWord 0x3000)).map (fun t => t.bch.phase) = some .hrpHi := by decide
/-- For the statements of `BCH.HRPH` and `BCH.HSEP`: halted, in another phase, accepted. -/
theorem witness_BchHrphAbsorbsTheHighPart :
    (withBch 1 .hrpHi true 3).bch.err = true ∧
    (withBch 1 .hrpLo false 0).bch.err = false ∧ (withBch 1 .hrpLo false 0).bch.phase ≠ .hrpHi ∧
    start.bch.err = false ∧ start.bch.phase = .hrpHi := by decide
theorem witness_BchHsepAbsorbsTheSeparator :
    (withBch 1 .hrpHi true 3).bch.err = true ∧
    (withBch 1 .done false 0).bch.err = false ∧ (withBch 1 .done false 0).bch.phase ≠ .hrpHi ∧
    start.bch.err = false ∧ start.bch.phase = .hrpHi := by decide
theorem witness_BchHrplAbsorbsTheLowPart :
    (withBch 1 .hrpLo true 3).bch.err = true ∧
    (withBch 1 .data false 0).bch.err = false ∧ (withBch 1 .data false 0).bch.phase ≠ .hrpLo ∧
    (withBch 1 .hrpLo false 0).bch.err = false ∧ (withBch 1 .hrpLo false 0).bch.phase = .hrpLo := by decide
/-- For the statements of `BCH.SYM` and `BCH.FIN`. -/
theorem witness_BchSymAbsorbsASymbol :
    (withBch 1 .data true 4).bch.err = true ∧
    (withBch 1 .done false 0).bch.err = false ∧ (withBch 1 .done false 0).bch.phase ≠ .hrpLo ∧
    (withBch 1 .done false 0).bch.phase ≠ .data ∧ (withBch 1 .hrpLo false 0).bch.phase = .hrpLo ∧
    (withBch 1 .data false 0).bch.phase = .data ∧ 31 < (32 : Byte).toNat ∧ (31 : Byte).toNat ≤ 31 := by decide
theorem witness_BchFinAbsorbsSixZeros :
    (withBch 1 .data true 4).bch.err = true ∧ start.bch.err = false ∧ start.bch.phase ≠ .hrpLo ∧
    start.bch.phase ≠ .data ∧ (withBch 1 .hrpLo false 0).bch.phase = .hrpLo ∧
    (withBch 1 .data false 0).bch.phase = .data ∧ (withBch 1 .data false 0).bch.err = false := by decide
theorem witness_BchCksumReturnsASymbol :
    (withBch 1 .done true 4).bch.err = true ∧
    (withBch 1 .data false 0).bch.err = false ∧ (withBch 1 .data false 0).bch.phase ≠ .done ∧
    (withBch 1 .done false 0).bch.err = false ∧ (withBch 1 .done false 0).bch.phase = .done ∧
    5 < (6 : Byte).toNat ∧ (5 : Byte).toNat ≤ 5 := by decide
theorem witness_BchVerifyTestsTheResidue :
    (withBch 1 .data true 4).bch.err = true ∧
    (withBch 1 .hrpLo false 0).bch.err = false ∧ (withBch 1 .hrpLo false 0).bch.phase ≠ .data ∧
    (withBch 1 .data false 0).bch.phase = .data ∧ (withBch 1 .data false 0).bch.chk = bech32Segwit.finalConst ∧
    (withBch 0 .data false 0).bch.phase = .data ∧ (withBch 0 .data false 0).bch.chk ≠ bech32Segwit.finalConst := by decide
theorem witness_MapS2cReturnsTheCharacter : 31 < (32 : Byte).toNat ∧ charset[(31 : Byte).toNat]? = some 0x6c := by decide
theorem witness_MapC2sReturnsTheSymbol : (0x62 : Byte) ∉ charset ∧ charset[0]? = some 0x71 := by decide
theorem witness_MapIsABijection :
    (31 : Byte).toNat ≤ 31 ∧
    exec (.mapC2s 0x6c) start = .next { start with responses := start.responses ++ [⟨.ok, 1, 31, 0⟩] } :=
  ⟨by decide, rfl⟩
theorem witness_R85CallIsConvertBits : start.r85 = ⟨0, 0⟩ := by decide
theorem witness_R58CallIsConvertBits :
    start.r58 = ⟨0, 0, false, 0⟩ ∧ convertBits [31, 28] 5 8 false = some [255] ∧
    ([31, 32, 0] : List Byte) = [31] ++ 32 :: [0] ∧ (∀ x ∈ ([31] : List Byte), x.toNat ≤ 31) ∧ 31 < (32 : Byte).toNat ∧
    convertBits [31, 29] 5 8 false = none ∧ convertBits [0] 5 8 false = none := by decide
theorem witness_RegroupingRoundTrip : start.r85 = ⟨0, 0⟩ ∧ start.r58 = ⟨0, 0, false, 0⟩ := by decide
theorem witness_BchCallsComputeAndVerify :
    start.bch = ⟨bech32Segwit.chkInit, .hrpHi, false, 0⟩ ∧ ([4] : List Sym) ≠ [] := by decide
theorem witness_ChecksumVerifiesExactlyWhenComputed : ([10, 28, 25, 31, 20, 31] : List Sym).length = 6 := by decide
theorem witness_OneSymbolChangesTheChecksum :
    lowIndependent bech32Segwit ∧ (4 : Sym) ≠ 5 ∧
    verifyChecksum bech32Segwit [0x61] ([31, 28, 5, 24, 8, 9, 26] ++ 4 :: []) = true :=
  ⟨by unfold lowIndependent; decide, by decide, by decide⟩
theorem witness_CommandsOfDifferentUnitsCommute :
    (Instr.r85Push 1 ≠ .sysRstall ∧ Instr.bchHsep ≠ .sysRstall ∧ (Instr.r85Push 1).target ≠ Instr.bchHsep.target) ∧
    (Instr.mapS2c 1).target = .map ∧ Instr.sysNop ≠ .sysRstall := by decide
theorem witness_OtherUnitsMayBeInterleaved :
    Instr.sysRstall ∉ [.r85Push 1, .bchHsep, .r85Flush, .mapS2c 3] ∧
    answers [.r85Push 255, .bchHsep, .r85Flush] start =
      some [⟨.ok, 1, 31, 0⟩, ⟨.ok, 0, 0, 0⟩, ⟨.ok, 1, 28, 0⟩] := by decide

end Sys2Proof.Tests
end

section
/-! SUPPORT. Each unit works on its own registers (rule R12): what a command may read and write, said once for every
command but `SYS.RSTALL`. -/

namespace Sys2Proof.Machine

/-! ### The registers of one unit -/

/-- `s` with the registers of unit `u` taken from `t`. `MAP` and `SYS` have none (rule R13). -/
def State.withUnit (u : Target) (s t : State) : State :=
  match u with
  | .r85 => s.setR85 t.r85
  | .r58 => s.setR58 t.r58
  | .bch => s.setBch t.bch
  | .map => s
  | .sys => s

theorem State.withUnit_r85 {u : Target} (hu : u ≠ .r85) (s t : State) : (s.withUnit u t).r85 = s.r85 := by
  cases u with
  | r85 => exact absurd rfl hu
  | r58 | bch | map | sys => rfl

theorem State.withUnit_r58 {u : Target} (hu : u ≠ .r58) (s t : State) : (s.withUnit u t).r58 = s.r58 := by
  cases u with
  | r58 => exact absurd rfl hu
  | r85 | bch | map | sys => rfl

theorem State.withUnit_bch {u : Target} (hu : u ≠ .bch) (s t : State) : (s.withUnit u t).bch = s.bch := by
  cases u with
  | bch => exact absurd rfl hu
  | r85 | r58 | map | sys => rfl

@[simp] theorem State.withUnit_inputs (u : Target) (s t : State) : (s.withUnit u t).inputs = s.inputs := by
  cases u <;> rfl

@[simp] theorem State.withUnit_responses (u : Target) (s t : State) :
    (s.withUnit u t).responses = s.responses := by
  cases u <;> rfl

theorem State.withUnit_of_sameUnit {u : Target} {x s : State} (h : sameUnit u x s) : s.withUnit u x = s := by
  cases u with
  | r85 => exact congrArg s.setR85 h
  | r58 => exact congrArg s.setR58 h
  | bch => exact congrArg s.setBch h
  | map | sys => rfl

theorem sameUnit_refl (u : Target) (s : State) : sameUnit u s s := by
  cases u with
  | r85 | r58 | bch => rfl
  | map | sys => trivial

/-- Two states whose unit `u` is taken from the same state agree on `u`, also after any responses. -/
theorem sameUnit_respond_withUnit (u : Target) (s s' t : State) (r r' : Response) :
    sameUnit u ((s.withUnit u t).respond r) ((s'.withUnit u t).respond r') := by
  cases u with
  | r85 | r58 | bch => rfl
  | map | sys => trivial

/-! ### A meaning that keeps to one unit -/

/-- `run` keeps to unit `u`: from all states that hold the same registers of `u` as `x` it writes the same registers of
`u`, returns the same response, and does nothing else. -/
def ActsWithin (u : Target) (run : State → Result) : Prop :=
  ∀ x : State, ∃ (t : State) (r : Response), ∀ s, sameUnit u x s → run s = .next ((s.withUnit u t).respond r)

section
variable {u : Target} {run : State → Result}

theorem actsWithin_answer (u : Target) (r : Response) : ActsWithin u (answer r) :=
  fun x => ⟨x, r, fun _ hs => by rw [State.withUnit_of_sameUnit hs]; rfl⟩

theorem actsWithin_r85 (f : R85Regs → R85Regs) (r : R85Regs → Response) :
    ActsWithin .r85 (fun s => answer (r s.r85) (s.setR85 (f s.r85))) := by
  refine fun x => ⟨x.setR85 (f x.r85), r x.r85, fun s (hs : x.r85 = s.r85) => ?_⟩
  rw [hs]; rfl

theorem actsWithin_r58 (f : R58Regs → R58Regs) (r : R58Regs → Response) :
    ActsWithin .r58 (fun s => answer (r s.r58) (s.setR58 (f s.r58))) := by
  refine fun x => ⟨x.setR58 (f x.r58), r x.r58, fun s (hs : x.r58 = s.r58) => ?_⟩
  rw [hs]; rfl

theorem actsWithin_bch (f : BchRegs → BchRegs) (r : BchRegs → Response) :
    ActsWithin .bch (fun s => answer (r s.bch) (s.setBch (f s.bch))) := by
  refine fun x => ⟨x.setBch (f x.bch), r x.bch, fun s (hs : x.bch = s.bch) => ?_⟩
  rw [hs]; rfl

/-- A meaning that looks at the registers of its unit and then goes one of several ways, each of which keeps to the
unit. -/
theorem ActsWithin.of_eq_at
    (h : ∀ x, ∃ way, ActsWithin u way ∧ ∀ s, sameUnit u x s → run s = way s) : ActsWithin u run := by
  intro x
  obtain ⟨way, hway, heq⟩ := h x
  obtain ⟨t, r, ht⟩ := hway x
  exact ⟨t, r, fun s hs => (heq s hs).trans (ht s hs)⟩

theorem actsWithin_raiseHalt_r58 (e : Status) : ActsWithin .r58 (raiseHalt .r58 e) :=
  actsWithin_r58 (fun q => { q with err := true, code := e.code }) (fun _ => .error e)

theorem actsWithin_raiseHalt_bch (e : Status) : ActsWithin .bch (raiseHalt .bch e) :=
  actsWithin_bch (fun q => { q with err := true, code := e.code }) (fun _ => .error e)

theorem ActsWithin.guardR58 (h : ActsWithin .r58 run) : ActsWithin .r58 (fun s => guardR58 s (run s)) := by
  refine .of_eq_at fun x => ?_
  cases hx : x.r58.err with
  | true =>
    exact ⟨_, actsWithin_answer _ (.error .eHalted), fun s (hs : x.r58 = s.r58) => guardR58_of_halted (hs ▸ hx)⟩
  | false => exact ⟨_, h, fun s (hs : x.r58 = s.r58) => guardR58_of_running (hs ▸ hx)⟩

theorem ActsWithin.guardBch (ps : List Phase) (h : ActsWithin .bch run) :
    ActsWithin .bch (fun s => guardBch ps s (run s)) := by
  refine .of_eq_at fun x => ?_
  cases hx : x.bch.err with
  | true =>
    exact ⟨_, actsWithin_answer _ (.error .eHalted), fun s (hs : x.bch = s.bch) => guardBch_of_halted (hs ▸ hx)⟩
  | false =>
    by_cases hp : x.bch.phase ∈ ps
    · exact ⟨_, h, fun s (hs : x.bch = s.bch) => guardBch_of_accepted (hs ▸ hx) (hs ▸ hp)⟩
    · exact ⟨_, actsWithin_raiseHalt_bch .eSeq, fun s (hs : x.bch = s.bch) =>
        guardBch_of_refused (hs ▸ hx) (hs ▸ hp)⟩

end

/-! ### The commands that check something -/

theorem execR58Push_actsWithin (v : Byte) : ActsWithin .r58 (execR58Push v) := by
  refine .guardR58 ?_
  cases symbol? v with
  | none => exact actsWithin_raiseHalt_r58 .eRange
  | some x => exact actsWithin_r58 (fun q => (push58 q x).1) (fun q => (push58 q x).2)

theorem execR58Fin_actsWithin : ActsWithin .r58 execR58Fin := by
  refine .guardR58 (.of_eq_at fun x => ?_)
  cases hx : padError? x.r58 with
  | none =>
    exact ⟨_, actsWithin_r58 (fun q => { q with bits := 0 }) (fun _ => .ok),
      fun s (hs : x.r58 = s.r58) => by rw [← hs, hx]⟩
  | some e => exact ⟨_, actsWithin_raiseHalt_r58 e, fun s (hs : x.r58 = s.r58) => by rw [← hs, hx]⟩

/-- The `BCH` commands that absorb the symbols `v` and move to the phase `p` of the present one. -/
theorem actsWithin_absorbBch (cfg : Cfg) (ps : List Phase) (v : List Sym) (p : Phase → Phase) :
    ActsWithin .bch (fun s => guardBch ps s (answer .ok (s.absorbBch cfg v (p s.bch.phase)))) :=
  .guardBch ps <|
    actsWithin_bch (fun q => { q with chk := absorbAll cfg q.chk v, phase := p q.phase }) (fun _ => .ok)

theorem execBchSymFor_actsWithin (cfg : Cfg) (v : Byte) : ActsWithin .bch (execBchSymFor cfg v) := by
  refine .guardBch _ ?_
  cases symbol? v with
  | none => exact actsWithin_raiseHalt_bch .eRange
  | some x =>
    exact actsWithin_bch (fun q => { q with chk := absorbAll cfg q.chk [x], phase := .data }) (fun _ => .ok)

theorem execBchCksumFor_actsWithin (cfg : Cfg) (i : Byte) : ActsWithin .bch (execBchCksumFor cfg i) := by
  refine .guardBch _ ?_
  cases cksumIndex? i with
  | none => exact actsWithin_raiseHalt_bch .eRange
  | some k =>
    exact actsWithin_bch id (fun q => .ok1 ((cksumSymbol (q.chk ^^^ cfg.finalConst) k).setWidth 8))

theorem execBchVerifyFor_actsWithin (cfg : Cfg) : ActsWithin .bch (execBchVerifyFor cfg) :=
  .guardBch _ (actsWithin_bch id (fun q => .ok1 (if q.chk = cfg.finalConst then 1 else 0)))

theorem execMapS2c_actsWithin (v : Byte) : ActsWithin .map (execMapS2c v) := by
  unfold execMapS2c
  cases symbol? v with
  | none => exact actsWithin_answer _ (.error .eRange)
  | some x => exact actsWithin_answer _ _

theorem execMapC2s_actsWithin (c : Byte) : ActsWithin .map (execMapC2s c) := by
  unfold execMapC2s
  cases charsetInv c with
  | none => exact actsWithin_answer _ (.error .eChar)
  | some x => exact actsWithin_answer _ _

/-! ### Every command -/

/-- R12: a command other than `SYS.RSTALL` keeps to the unit it addresses. -/
theorem execFor_actsWithin (cfg : Cfg) : ∀ i : Instr, i ≠ .sysRstall → ActsWithin i.target (execFor cfg i)
  | .sysRstall, h => absurd rfl h
  | .sysNop, _ => actsWithin_answer _ .ok
  | .r85Clr, _ => actsWithin_r85 (fun _ => .cleared) (fun _ => .ok)
  | .r85Push b, _ => actsWithin_r85 (fun q => (push85 q b).1) (fun q => (push85 q b).2)
  | .r85Flush, _ => actsWithin_r85 (fun _ => .cleared) flush85
  | .r85St, _ => actsWithin_r85 id (fun q => .ok2 q.view0 q.view1)
  | .r58Clr, _ => actsWithin_r58 (fun _ => .cleared) (fun _ => .ok)
  | .r58Push v, _ => execR58Push_actsWithin v
  | .r58Fin, _ => execR58Fin_actsWithin
  | .r58St, _ => actsWithin_r58 id (fun q => .ok2 q.view0 q.view1)
  | .bchClr, _ => actsWithin_bch (fun _ => .cleared cfg) (fun _ => .ok)
  | .bchHrph c, _ => actsWithin_absorbBch cfg _ [hrpHigh c] id
  | .bchHsep, _ => actsWithin_absorbBch cfg _ [0] (fun _ => .hrpLo)
  | .bchHrpl c, _ => actsWithin_absorbBch cfg _ [hrpLow c] id
  | .bchSym v, _ => execBchSymFor_actsWithin cfg v
  | .bchFin, _ => actsWithin_absorbBch cfg _ sixZeros (fun _ => .done)
  | .bchCksum k, _ => execBchCksumFor_actsWithin cfg k
  | .bchVerify, _ => execBchVerifyFor_actsWithin cfg
  | .bchSt, _ => actsWithin_bch id (fun q => .ok2 q.view0 0)
  | .mapS2c v, _ => execMapS2c_actsWithin v
  | .mapC2s c, _ => execMapC2s_actsWithin c

theorem execFor_sysRstall (cfg : Cfg) (s : State) :
    execFor cfg .sysRstall s = .next ((s.clearAll cfg).respond .ok) := rfl

/-- What a command writes: the inputs stay, and of the registers only those of the unit it addresses may change. -/
theorem execFor_writes_own_unit (cfg : Cfg) (i : Instr) (s : State) :
    ∃ t, execFor cfg i s = .next t ∧ t.inputs = s.inputs ∧
      (i ≠ .sysRstall →
        (i.target ≠ .r85 → t.r85 = s.r85) ∧ (i.target ≠ .r58 → t.r58 = s.r58) ∧
        (i.target ≠ .bch → t.bch = s.bch)) := by
  by_cases hi : i = .sysRstall
  · subst hi
    exact ⟨_, execFor_sysRstall cfg s, rfl, fun h => absurd rfl h⟩
  · obtain ⟨t, r, ht⟩ := execFor_actsWithin cfg i hi s
    exact ⟨_, ht s (sameUnit_refl _ s), State.withUnit_inputs _ s t, fun _ =>
      ⟨fun hu => State.withUnit_r85 hu s t, fun hu => State.withUnit_r58 hu s t,
        fun hu => State.withUnit_bch hu s t⟩⟩

/-- What a command reads: two states that agree on its unit get the same response and agree on that unit afterwards. -/
theorem execFor_reads_own_unit (cfg : Cfg) (i : Instr) {s s' : State} (h : sameUnit i.target s s') :
    ∃ t t' r, execFor cfg i s = .next t ∧ execFor cfg i s' = .next t' ∧
      t.responses = s.responses ++ [r] ∧ t'.responses = s'.responses ++ [r] ∧ sameUnit i.target t t' := by
  by_cases hi : i = .sysRstall
  · subst hi
    exact ⟨_, _, .ok, execFor_sysRstall cfg s, execFor_sysRstall cfg s', rfl, rfl, trivial⟩
  · obtain ⟨t, r, ht⟩ := execFor_actsWithin cfg i hi s
    exact ⟨_, _, r, ht s (sameUnit_refl _ s), ht s' h, by simp, by simp,
      sameUnit_respond_withUnit _ s s' t r r⟩

/-- Settles O14: every command but `SYS.RSTALL` keeps to its own unit, and `SYS.RSTALL` reads none. -/
theorem unitsShareNoRegister : Obligations.UnitsShareNoRegister :=
  ⟨execFor_writes_own_unit, fun cfg i _ _ h => execFor_reads_own_unit cfg i h⟩

end Sys2Proof.Machine
end

section
/-! SUPPORT. The registers after reset (rule R23). -/

namespace Sys2Proof.Machine

/-- The block's own reset state is that of a block with its parameters (rule R5). -/
theorem State.reset_eq_resetFor : State.reset = State.resetFor Config.cfg := rfl

/-- Settles O1: both forms of the reset state are `State.resetFor cfg`, whose fields are the reset column of R13. -/
theorem resetRegistersHoldTheirResetValues : Obligations.ResetRegistersHoldTheirResetValues := by
  intro cfg s hs
  have hreset : s = State.resetFor cfg := by
    obtain h | ⟨h, hcfg⟩ := hs
    · exact h
    · rw [h, hcfg, State.reset_eq_resetFor]
  subst hreset
  exact ⟨rfl, rfl, rfl, rfl, rfl, rfl, rfl, rfl, rfl, rfl⟩

end Sys2Proof.Machine
end

section
/-! SUPPORT. The charset table against the string of rule R25. -/

namespace Sys2Proof.Machine

/-- The table lists the characters of all 32 symbols in order. -/
theorem charset_eq_map_charOf : charset = (List.finRange 32).map fun i => charOf (.ofFin i) := by decide

/-- Two symbols never share a character, because the inverse table gives each symbol back. -/
theorem charOf_injective : Function.Injective charOf := fun v w h =>
  Option.some.inj <| calc
    some v = charsetInv (charOf v) := (charsetInv_charOf v).symm
    _ = charsetInv (charOf w) := by rw [h]
    _ = some w := charsetInv_charOf w

theorem charset_nodup : charset.Nodup := by
  rw [charset_eq_map_charOf]
  exact (List.nodup_finRange 32).map fun _ _ h => BitVec.ofFin.inj (charOf_injective h)

/-- Settles O44: the codes agree with the string entry by entry, and distinct symbols have distinct characters. -/
theorem charsetIsTheString : Obligations.CharsetIsTheString :=
  ⟨by decide, charset_nodup⟩

end Sys2Proof.Machine
end

section
/-! SUPPORT. A word decodes to a command exactly when its fields are the row's, and that is when it selects the row
(rules R43, R45). -/

namespace Sys2Proof

/-! ### The fields of a word -/

/-- Two words with the same three fields are the same word (rule R40). -/
theorem cmdWord_ext_iff {w v : CmdWord} :
    w = v ↔ unitField w = unitField v ∧ opField w = opField v ∧ operandField w = operandField v := by
  constructor
  · rintro rfl
    exact ⟨rfl, rfl, rfl⟩
  · rintro ⟨hu, ho, hx⟩
    rw [← cmd16_fields w, ← cmd16_fields v, hu, ho, hx]

@[simp] theorem unitField_and (w v : CmdWord) : unitField (w &&& v) = unitField w &&& unitField v :=
  BitVec.extractLsb'_and

@[simp] theorem opField_and (w v : CmdWord) : opField (w &&& v) = opField w &&& opField v :=
  BitVec.extractLsb'_and

@[simp] theorem operandField_and (w v : CmdWord) : operandField (w &&& v) = operandField w &&& operandField v :=
  BitVec.extractLsb'_and

/-! ### The row of a command -/

@[simp] theorem unitField_rowMatch (i : Instr) : unitField i.rowMatch = i.target.unitCode := by
  cases i <;> simp only [Instr.rowMatch] <;> rfl

@[simp] theorem opField_rowMatch (i : Instr) : opField i.rowMatch = i.opCode := by
  cases i <;> simp only [Instr.rowMatch] <;> rfl

@[simp] theorem operandField_rowMatch (i : Instr) : operandField i.rowMatch = 0 := by
  cases i <;> simp only [Instr.rowMatch] <;> rfl

@[simp] theorem unitField_rowMask (i : Instr) : unitField i.rowMask = BitVec.allOnes 4 := by
  cases i <;> simp only [Instr.rowMask] <;> rfl

@[simp] theorem opField_rowMask (i : Instr) : opField i.rowMask = BitVec.allOnes 4 := by
  cases i <;> simp only [Instr.rowMask] <;> rfl

/-- The mask of a row covers `w[7:0]` exactly when the command takes no operand. -/
@[simp] theorem operandField_rowMask (i : Instr) :
    operandField i.rowMask = if i.operand? = none then BitVec.allOnes 8 else 0 := by
  cases i <;> simp only [Instr.rowMask] <;> rfl

/-- What `w & mask = match` says of the fields. -/
theorem selectsRow_iff (w : CmdWord) (i : Instr) :
    w &&& i.rowMask = i.rowMatch ↔
      unitField w = i.target.unitCode ∧ opField w = i.opCode ∧ (i.operand? = none → operandField w = 0) := by
  rw [cmdWord_ext_iff]
  cases hx : i.operand? with
  | none => simp [-BitVec.reduceAllOnes, hx]
  | some x => simp [-BitVec.reduceAllOnes, hx]

/-! ### Decoding by fields -/

/-- The converse of `decode_ok_fields`. -/
theorem decode_of_fields {w : CmdWord} {i : Instr} (hu : unitField w = i.target.unitCode)
    (ho : opField w = i.opCode) (hx : operandField w = i.operand?.getD 0) : decode w = .ok i := by
  unfold decode
  rw [hu, ho, hx]
  cases i <;> rfl

theorem decode_eq_ok_iff (w : CmdWord) (i : Instr) :
    decode w = .ok i ↔
      unitField w = i.target.unitCode ∧ opField w = i.opCode ∧ operandField w = i.operand?.getD 0 :=
  ⟨decode_ok_fields, fun ⟨hu, ho, hx⟩ => decode_of_fields hu ho hx⟩

/-- Settles O8: both sides fix the same three fields of the word; the operand is `w[7:0]` where the row has one, and
`w[7:0] = 0` where the mask covers it. -/
theorem wordSelectsItsRow : Obligations.WordSelectsItsRow := by
  intro w i
  rw [decode_eq_ok_iff, selectsRow_iff]
  cases i.operand? with
  | none => simp
  | some x => simp [and_assoc, eq_comm (a := x)]

end Sys2Proof
end

section
/-! SUPPORT. The reserved words, unit by unit, and the step that takes one (rule R46). -/

namespace Sys2Proof

/-- The decoder's answer is a refusal. -/
def IsReserved (r : Except DecodeError Instr) : Prop := ∃ e, r = .error e

@[simp] theorem isReserved_error (e : DecodeError) : IsReserved (.error e) := ⟨e, rfl⟩

@[simp] theorem not_isReserved_ok (i : Instr) : ¬ IsReserved (.ok i) := nofun

@[simp] theorem isReserved_noOperand (x : Byte) (i : Instr) : IsReserved (noOperand x i) ↔ x.toNat ≠ 0 := by
  unfold noOperand
  split
  next hx => simp [hx]
  next hx => simpa using fun h : x.toNat = 0 => hx (BitVec.eq_of_toNat_eq h)

/-! ### The table of rule R43, one row of `op` codes per unit -/

section
variable {op : Nat} (hop : op < 16) (x : Byte)
include hop

theorem isReserved_decodeSys : IsReserved (decodeSys op x) ↔ 2 ≤ op ∨ x.toNat ≠ 0 ∧ op ≤ 1 := by
  interval_cases op <;> simp [decodeSys]

theorem isReserved_decodeR85 :
    IsReserved (decodeR85 op x) ↔ 3 ≤ op ∧ op ≤ 14 ∨ x.toNat ≠ 0 ∧ (op = 0 ∨ op = 2 ∨ op = 15) := by
  interval_cases op <;> simp [decodeR85]

theorem isReserved_decodeR58 :
    IsReserved (decodeR58 op x) ↔ 3 ≤ op ∧ op ≤ 14 ∨ x.toNat ≠ 0 ∧ (op = 0 ∨ op = 2 ∨ op = 15) := by
  interval_cases op <;> simp [decodeR58]

theorem isReserved_decodeBch :
    IsReserved (decodeBch op x) ↔
      8 ≤ op ∧ op ≤ 14 ∨ x.toNat ≠ 0 ∧ (op = 0 ∨ op = 2 ∨ op = 5 ∨ op = 7 ∨ op = 15) := by
  interval_cases op <;> simp [decodeBch]

theorem isReserved_decodeMap : IsReserved (decodeMap op x) ↔ op = 0 ∨ 3 ≤ op := by
  interval_cases op <;> simp [decodeMap]

end

end Sys2Proof

namespace Sys2Proof.Machine

/-- A step that takes a reserved word, in any block: it answers `E_ILLEGAL` and writes no register (rule R46). -/
theorem stepBy_reserved (cfg : Cfg) (run : Instr → State → Result) {s : State} {w : CmdWord} {e : DecodeError}
    {rest : List HostInput} (hin : s.inputs = .command w :: rest) (hw : decode w = .error e) :
    stepBy cfg run s = .next ((s.takeInput rest).respond (.error .eIllegal)) := by
  simp only [stepBy, hin, runWordBy, hw]
  rfl

/-- Settles O9: the decoder's table unit by unit, then the one step of a reserved word. -/
theorem reservedWordsAnswerIllegal : Obligations.ReservedWordsAnswerIllegal := by
  refine ⟨fun w => ?_, fun s w e rest hin hw =>
    ⟨stepBy_reserved _ _ hin hw, fun cfg => stepBy_reserved _ _ hin hw⟩⟩
  have hop : (opField w).toNat < 16 := (opField w).isLt
  change IsReserved (decode w) ↔ _
  rw [← unitField, ← opField, ← operandField]
  unfold decode
  match (unitField w).toNat with
  | 0 => exact (isReserved_decodeSys hop _).trans (by omega)
  | 1 => exact (isReserved_decodeR85 hop _).trans (by omega)
  | 2 => exact (isReserved_decodeR58 hop _).trans (by omega)
  | 3 => exact (isReserved_decodeBch hop _).trans (by omega)
  | 4 => exact (isReserved_decodeMap hop _).trans (by omega)
  | n + 5 => exact iff_of_true (isReserved_error _) (.inl (by omega))

end Sys2Proof.Machine
end

section
/-! SUPPORT. A row's word with the operand filled in decodes to the row's command (rules R43, R45). -/

namespace Sys2Proof

/-! ### The fields of an operand widened to a word -/

@[simp] theorem unitField_or (w v : CmdWord) : unitField (w ||| v) = unitField w ||| unitField v :=
  BitVec.extractLsb'_or

@[simp] theorem opField_or (w v : CmdWord) : opField (w ||| v) = opField w ||| opField v :=
  BitVec.extractLsb'_or

@[simp] theorem operandField_or (w v : CmdWord) : operandField (w ||| v) = operandField w ||| operandField v :=
  BitVec.extractLsb'_or

/-- Above its eight bits a widened operand is zero. -/
theorem extractLsb'_setWidth_eq_zero (x : Byte) {start : Nat} (h : 8 ≤ start) (len : Nat) :
    (x.setWidth 16).extractLsb' start len = 0 := by
  apply BitVec.eq_of_getLsbD_eq
  intro i _
  simp [BitVec.getLsbD_of_ge x (start + i) (by omega)]

@[simp] theorem unitField_setWidth (x : Byte) : unitField (x.setWidth 16) = 0 :=
  extractLsb'_setWidth_eq_zero x (by decide) 4

@[simp] theorem opField_setWidth (x : Byte) : opField (x.setWidth 16) = 0 :=
  extractLsb'_setWidth_eq_zero x (by decide) 4

@[simp] theorem operandField_setWidth (x : Byte) : operandField (x.setWidth 16) = x := by
  rw [operandField, BitVec.extractLsb'_setWidth_of_le (by decide), BitVec.extractLsb'_eq_self]

/-! ### The word of a row -/

/-- A row that takes no operand: its word is `match`. -/
theorem decode_rowMatch {i : Instr} (hi : i.operand? = none) : decode i.rowMatch = .ok i :=
  decode_of_fields (by simp) (by simp) (by simp [hi])

/-- A row that takes an operand: its word is `match` with the operand in `w[7:0]`. -/
theorem decode_rowMatch_or_operand {i : Instr} {x : Byte} (hi : i.operand? = some x) :
    decode (i.rowMatch ||| x.setWidth 16) = .ok i :=
  decode_of_fields (by simp) (by simp) (by simp [hi])

end Sys2Proof
end

section
/-! SUPPORT. The commands of `R85`: what each answers and what it leaves in the unit (rules R54 to R57). -/

namespace Sys2Proof.Machine

/-! ### What each command answers -/

@[simp] theorem exec_r85Clr (s : State) : exec .r85Clr s = answer .ok s.clearR85 := rfl

@[simp] theorem exec_r85Push (b : Byte) (s : State) :
    exec (.r85Push b) s = answer (push85 s.r85 b).2 (s.setR85 (push85 s.r85 b).1) := rfl

@[simp] theorem exec_r85Flush (s : State) : exec .r85Flush s = answer (flush85 s.r85) s.clearR85 := rfl

@[simp] theorem exec_r85St (s : State) : exec .r85St s = answer (.ok2 s.r85.view0 s.r85.view1) s := rfl

/-- The spec's mask of a symbol, by division. -/
theorem and_31 (m : Nat) : m &&& 31 = m % 32 := Nat.and_two_pow_sub_one_eq_mod m 5

/-! ### The push -/

/-- A push that completes two symbols. -/
theorem push85_two {r : R85Regs} (b : Byte) (h : 10 ≤ r.bits.toNat + 8) :
    push85 r b =
      let t := r.rem.toNat * 256 + b.toNat
      let n := r.bits.toNat + 8
      (⟨.ofNat 4 (t % 2 ^ (n - 10)), .ofNat 3 (n - 10)⟩,
        .ok2 (.ofNat 8 (t / 2 ^ (n - 5) % 32)) (.ofNat 8 (t / 2 ^ (n - 10) % 32))) := by
  simp only [push85, if_pos h, lowBits_eq_mod, and_31, Nat.shiftRight_eq_div_pow]

/-- A push that completes one symbol. -/
theorem push85_one {r : R85Regs} (b : Byte) (h : r.bits.toNat + 8 < 10) :
    push85 r b =
      let t := r.rem.toNat * 256 + b.toNat
      let n := r.bits.toNat + 8
      (⟨.ofNat 4 (t % 2 ^ (n - 5)), .ofNat 3 (n - 5)⟩, .ok1 (.ofNat 8 (t / 2 ^ (n - 5) % 32))) := by
  simp only [push85, if_neg (Nat.not_le.mpr h), lowBits_eq_mod, and_31, Nat.shiftRight_eq_div_pow]

/-! ### The flush -/

/-- A canonical leftover, moved to the top of a symbol, still fits in the symbol. -/
theorem R85Regs.legal.justified_lt {r : R85Regs} (hr : r.legal) : r.rem.toNat * 2 ^ (5 - r.bits.toNat) < 32 := by
  obtain ⟨hbits, hrem⟩ := hr
  calc r.rem.toNat * 2 ^ (5 - r.bits.toNat)
      < 2 ^ r.bits.toNat * 2 ^ (5 - r.bits.toNat) := Nat.mul_lt_mul_of_pos_right hrem (Nat.two_pow_pos _)
    _ = 2 ^ 5 := by rw [← Nat.pow_add, Nat.add_sub_cancel' (hbits.trans (by decide))]

/-- The mask of rule R56 changes nothing on a canonical leftover. -/
theorem toNat_padSymbol {r : R85Regs} (hr : r.legal) :
    (padSymbol r).toNat = r.rem.toNat * 2 ^ (5 - r.bits.toNat) := by
  have hbits : r.bits.toNat ≤ 5 := hr.1.trans (by decide)
  rw [padSymbol, if_pos hbits, Nat.shiftLeft_eq, and_31, Nat.mod_eq_of_lt hr.justified_lt, BitVec.toNat_ofNat]
  exact Nat.mod_eq_of_lt hr.justified_lt

theorem flush85_of_pos {r : R85Regs} (hr : r.legal) (h : 0 < r.bits.toNat) :
    flush85 r = .ok1 (.ofNat 8 (r.rem.toNat * 2 ^ (5 - r.bits.toNat))) := by
  rw [flush85, if_pos h, ← toNat_padSymbol hr, BitVec.ofNat_toNat]

theorem flush85_of_empty {r : R85Regs} (h : r.bits = 0) : flush85 r = .ok := by
  simp [flush85, h]

/-! ### The view -/

/-- `R85` has no flag and no code, so its view is its count of leftover bits (rule R57). -/
theorem R85Regs.view0_eq (r : R85Regs) : r.view0 = r.bits.setWidth 8 :=
  (BitVec.setWidth_eq_append (w := 8) (x := r.bits) (by decide)).symm

/-! ### The statements -/

/-- Settles O22: the clear writes the cleared registers and nothing else. -/
theorem r85ClrDiscardsTheLeftover : Obligations.R85ClrDiscardsTheLeftover :=
  ⟨decode_rowMatch (i := .r85Clr) rfl, exec_r85Clr⟩

/-- Settles O23: the two branches of the push, shift and mask read as division and remainder. -/
theorem r85PushReturnsCompletedSymbols : Obligations.R85PushReturnsCompletedSymbols := by
  refine ⟨fun b => decode_rowMatch_or_operand (i := .r85Push b) rfl, fun b s _ => ⟨fun h => ?_, fun h => ?_⟩⟩
  · rw [exec_r85Push, push85_two b h]; rfl
  · rw [exec_r85Push, push85_one b h]; rfl

/-- Settles O25: the padded symbol when a bit is left, nothing when none is; the unit is cleared in both cases. -/
theorem r85FlushPadsTheLastSymbol : Obligations.R85FlushPadsTheLastSymbol := by
  refine ⟨decode_rowMatch (i := .r85Flush) rfl, fun s hs => ⟨fun h => ?_, fun h => ?_⟩⟩
  · rw [exec_r85Flush, flush85_of_pos hs h]; rfl
  · rw [exec_r85Flush, flush85_of_empty h]; rfl

/-- Settles O26: `out0` is the view without flag and code, `out1` is `rem`. -/
theorem r85StReturnsTheView : Obligations.R85StReturnsTheView := by
  refine ⟨decode_rowMatch (i := .r85St) rfl, fun s => ?_⟩
  rw [exec_r85St, R85Regs.view0_eq]; rfl

end Sys2Proof.Machine
end

section
/-! SUPPORT. The commands of `R58`: what each answers and what it leaves in the unit (rules R61 to R64). -/

namespace Sys2Proof.Machine

/-! ### What each command answers -/

@[simp] theorem exec_r58Clr (s : State) : exec .r58Clr s = answer .ok s.clearR58 := rfl

@[simp] theorem exec_r58Push (v : Byte) (s : State) : exec (.r58Push v) s = execR58Push v s := rfl

@[simp] theorem exec_r58Fin (s : State) : exec .r58Fin s = execR58Fin s := rfl

@[simp] theorem exec_r58St (s : State) : exec .r58St s = answer (.ok2 s.r58.view0 s.r58.view1) s := rfl

/-! ### The push -/

/-- The spec's mask of a byte, by division. -/
theorem and_255 (m : Nat) : m &&& 255 = m % 256 := Nat.and_two_pow_sub_one_eq_mod m 8

/-- The symbol of an operand in range has the operand's value (rule R44). -/
theorem toNat_setWidth_five {v : Byte} (h : v.toNat ≤ 31) : (v.setWidth 5).toNat = v.toNat := by
  rw [BitVec.toNat_setWidth, Nat.mod_eq_of_lt (Nat.lt_succ_of_le h)]

/-- A push that completes a byte. -/
theorem push58_completes {r : R58Regs} (v : Sym) (h : 8 ≤ r.bits.toNat + 5) :
    push58 r v =
      let t := r.rem.toNat * 32 + v.toNat
      let n := r.bits.toNat + 5
      ({ r with rem := .ofNat 7 (t % 2 ^ (n - 8)), bits := .ofNat 3 (n - 8) },
        .ok1 (.ofNat 8 (t / 2 ^ (n - 8) % 256))) := by
  simp only [push58, if_pos h, lowBits_eq_mod, and_255, Nat.shiftRight_eq_div_pow]

/-- A push that only lengthens the leftover. -/
theorem push58_accumulates {r : R58Regs} (v : Sym) (h : r.bits.toNat + 5 < 8) :
    push58 r v =
      ({ r with rem := .ofNat 7 (r.rem.toNat * 32 + v.toNat), bits := .ofNat 3 (r.bits.toNat + 5) }, .ok) := by
  simp only [push58, if_neg (Nat.not_le.mpr h)]

/-- A push that passes both checks. -/
theorem execR58Push_of_le {v : Byte} {s : State} (h : s.r58.err = false) (hv : v.toNat ≤ 31) :
    execR58Push v s =
      answer (push58 s.r58 (v.setWidth 5)).2 (s.setR58 (push58 s.r58 (v.setWidth 5)).1) := by
  rw [execR58Push, guardR58_of_running h, symbol?_of_le hv]

/-! ### The view -/

/-- Two fields side by side, by their values. -/
theorem toNat_append_eq_add {n m : Nat} (x : BitVec n) (y : BitVec m) :
    (x ++ y).toNat = x.toNat * 2 ^ m + y.toNat := by
  rw [BitVec.toNat_append, ← Nat.shiftLeft_add_eq_or_of_lt y.isLt, Nat.shiftLeft_eq]

theorem toNat_statusByte (err : Bool) (code : BitVec 4) (low : BitVec 3) :
    (statusByte err code low).toNat = (if err then 128 else 0) + code.toNat * 8 + low.toNat := by
  have h : (statusByte err code low).toNat = _ := toNat_append_eq_add (BitVec.ofBool err ++ code) low
  rw [h, toNat_append_eq_add]
  cases err with
  | false => simp
  | true => simp; omega

/-- The fields of a status view by their places in the byte (rule R19). -/
theorem statusByte_eq_ofNat (err : Bool) (code : BitVec 4) (low : BitVec 3) :
    statusByte err code low = .ofNat 8 ((if err then 128 else 0) + code.toNat * 8 + low.toNat) := by
  rw [← toNat_statusByte, BitVec.ofNat_toNat, BitVec.setWidth_eq]

/-! ### The statements -/

/-- Settles O27: the clear writes the cleared registers and nothing else, and has no halted check. -/
theorem r58ClrLeavesTheHaltedState : Obligations.R58ClrLeavesTheHaltedState :=
  ⟨decode_rowMatch (i := .r58Clr) rfl, exec_r58Clr⟩

/-- Settles O28: the two checks in their order, then the two branches of the push, shift and mask read as division and
remainder. -/
theorem r58PushReturnsCompletedByte : Obligations.R58PushReturnsCompletedByte := by
  refine ⟨fun v => decode_rowMatch_or_operand (i := .r58Push v) rfl, fun v s h => guardR58_of_halted h,
    fun v s h hv => ?_, fun v s _ h hv => ⟨fun hn => ?_, fun hn => ?_⟩⟩
  · rw [exec_r58Push, execR58Push, guardR58_of_running h, symbol?_of_gt hv]; rfl
  · rw [exec_r58Push, execR58Push_of_le h hv, push58_completes _ hn, toNat_setWidth_five hv]; rfl
  · rw [exec_r58Push, execR58Push_of_le h hv, push58_accumulates _ hn, toNat_setWidth_five hv]; rfl

/-- Settles O29: each outcome of the command answers its own clause and contradicts the other three. -/
theorem r58FinChecksThePadding : Obligations.R58FinChecksThePadding := by
  refine ⟨decode_rowMatch (i := .r58Fin) rfl, fun s => ?_⟩
  rw [exec_r58Fin]
  obtain ⟨h, e⟩ | ⟨h, hr, e⟩ | ⟨h, hr, hb, e⟩ | ⟨h, hr, hb, e⟩ := execR58Fin_cases s
  · simp [e, h]
  · simp [e, h, show s.r58.rem ≠ 0#7 from hr, Status.code]
  · simp [e, h, hr, hb, Status.code]
  · simp [e, h, hr, hb, Response.ok, State.setR58]

/-- Settles O31: `out0` is the view by the places of its fields, `out1` is `rem`. -/
theorem r58StReturnsTheView : Obligations.R58StReturnsTheView := by
  refine ⟨decode_rowMatch (i := .r58St) rfl, fun s => ?_⟩
  rw [exec_r58St, R58Regs.view0, statusByte_eq_ofNat]; rfl

end Sys2Proof.Machine
end

section
/-! SUPPORT. The accumulator step on integers and over GF(2) (rule R67). -/

namespace Sys2Proof.Machine

/-! ### A constant that a bit selects -/

/-- What one bit of the accumulator adds over GF(2): the constant when the bit is set. -/
theorem ite_xor_eq_xor_ite (b : Bool) (d g : Nat) : (if b then d ^^^ g else d) = d ^^^ if b then g else 0 := by
  cases b <;> simp

/-- Selecting a constant is linear in the selecting bit. -/
theorem ite_bne_eq_xor (a b : Bool) (g : Acc) :
    (if a ^^ b then g else 0) = (if a then g else 0) ^^^ if b then g else 0 := by
  cases a with
  | false => simp
  | true => cases b <;> simp

theorem genMix_xor (cfg : Cfg) (x y : BitVec 5) : genMix cfg (x ^^^ y) = genMix cfg x ^^^ genMix cfg y := by
  simp only [genMix, BitVec.getLsbD_xor, ite_bne_eq_xor]
  ac_rfl

/-- The five selected constants by the accumulator's own bits, 25 to 29. -/
theorem toNat_genMix_top (cfg : Cfg) (c : Acc) :
    (genMix cfg (c.extractLsb' 25 5)).toNat =
      (if c.toNat.testBit 25 then cfg.gen0.toNat else 0) ^^^ (if c.toNat.testBit 26 then cfg.gen1.toNat else 0) ^^^
      (if c.toNat.testBit 27 then cfg.gen2.toNat else 0) ^^^ (if c.toNat.testBit 28 then cfg.gen3.toNat else 0) ^^^
      (if c.toNat.testBit 29 then cfg.gen4.toNat else 0) := by
  simp [genMix, BitVec.toNat_xor, apply_ite BitVec.toNat, BitVec.testBit_toNat]

/-! ### The shifted accumulator -/

/-- The accumulator without its top five bits, moved up by five. -/
theorem toNat_shiftedLow (c : Acc) :
    ((c.extractLsb' 0 25).setWidth 30 <<< 5).toNat = c.toNat % 2 ^ 25 * 32 := by
  have hlow : c.toNat % 2 ^ 25 < 2 ^ 25 := Nat.mod_lt _ (by decide)
  rw [BitVec.toNat_shiftLeft, BitVec.toNat_setWidth_of_le (by decide), BitVec.extractLsb'_toNat, Nat.shiftRight_zero,
    Nat.shiftLeft_eq]
  exact Nat.mod_eq_of_lt (by omega)

/-! ### The step -/

theorem toNat_absorb (cfg : Cfg) (c : Acc) (v : Sym) :
    (absorb cfg c v).toNat =
      (c.toNat % 2 ^ 25 * 32 ^^^ v.toNat) ^^^ (genMix cfg (c.extractLsb' 25 5)).toNat := by
  rw [absorb, BitVec.toNat_xor, BitVec.toNat_xor, toNat_shiftedLow, BitVec.toNat_setWidth_of_le (by decide)]

theorem absorb_xor (cfg : Cfg) (c d : Acc) (v w : Sym) :
    absorb cfg (c ^^^ d) (v ^^^ w) = absorb cfg c v ^^^ absorb cfg d w := by
  simp only [absorb, BitVec.extractLsb'_xor, BitVec.setWidth_xor, BitVec.shiftLeft_xor_distrib, genMix_xor]
  ac_rfl

/-- A linear map sends zero to zero. -/
theorem absorb_zero (cfg : Cfg) : absorb cfg 0 0 = 0 := calc
  absorb cfg 0 0 = absorb cfg (0 ^^^ 0) (0 ^^^ 0) := rfl
  _ = absorb cfg 0 0 ^^^ absorb cfg 0 0 := absorb_xor cfg 0 0 0 0
  _ = 0 := BitVec.xor_self

/-- Settles O32: the fold adds the selected constants one by one, and every part of the step is linear. -/
theorem absorbIsTheLinearStep : Obligations.AbsorbIsTheLinearStep := by
  refine ⟨fun cfg c v => ?_, absorb_xor, absorb_zero⟩
  simp only [toNat_absorb, toNat_genMix_top, List.foldl_cons, List.foldl_nil, ite_xor_eq_xor_ite, Nat.xor_assoc]

end Sys2Proof.Machine
end

section
/-! SUPPORT. The commands of `BCH`: what each answers, in which phase, and what it leaves in the unit (rules R70 to
R79). -/

namespace Sys2Proof.Machine

/-- The block itself is the machine at its own parameters (rule R5). -/
theorem exec_eq_execFor (i : Instr) (s : State) : exec i s = execFor Config.cfg i s := by
  cases i <;> rfl

/-! ### What each command answers -/

@[simp] theorem execFor_bchClr (cfg : Cfg) (s : State) :
    execFor cfg .bchClr s = answer .ok (s.clearBch cfg) := rfl

@[simp] theorem execFor_bchHrph (cfg : Cfg) (c : Byte) (s : State) :
    execFor cfg (.bchHrph c) s = execBchHrphFor cfg c s := rfl

@[simp] theorem execFor_bchHsep (cfg : Cfg) (s : State) : execFor cfg .bchHsep s = execBchHsepFor cfg s := rfl

@[simp] theorem execFor_bchHrpl (cfg : Cfg) (c : Byte) (s : State) :
    execFor cfg (.bchHrpl c) s = execBchHrplFor cfg c s := rfl

@[simp] theorem execFor_bchSym (cfg : Cfg) (v : Byte) (s : State) :
    execFor cfg (.bchSym v) s = execBchSymFor cfg v s := rfl

@[simp] theorem execFor_bchFin (cfg : Cfg) (s : State) : execFor cfg .bchFin s = execBchFinFor cfg s := rfl

@[simp] theorem execFor_bchCksum (cfg : Cfg) (i : Byte) (s : State) :
    execFor cfg (.bchCksum i) s = execBchCksumFor cfg i s := rfl

@[simp] theorem execFor_bchVerify (cfg : Cfg) (s : State) :
    execFor cfg .bchVerify s = execBchVerifyFor cfg s := rfl

@[simp] theorem exec_bchSt (s : State) : exec .bchSt s = answer (.ok2 s.bch.view0 0) s := rfl

/-! ### The operands and the results by their values -/

theorem hrpHigh_eq_div (c : Byte) : hrpHigh c = .ofNat 5 (c.toNat / 32) := by
  apply BitVec.eq_of_toNat_eq
  have hc : c.toNat < 256 := c.isLt
  rw [hrpHigh, BitVec.toNat_setWidth_of_le (by decide), BitVec.extractLsb'_toNat, Nat.shiftRight_eq_div_pow,
    BitVec.toNat_ofNat]
  omega

theorem hrpLow_eq_mod (c : Byte) : hrpLow c = .ofNat 5 (c.toNat % 32) := by
  apply BitVec.eq_of_toNat_eq
  simp [hrpLow]

/-- A checksum symbol by division (rule R77). -/
theorem setWidth_cksumSymbol (p : Acc) (i : Fin 6) :
    (cksumSymbol p i).setWidth 8 = .ofNat 8 (p.toNat / 2 ^ (5 * (5 - i.val)) % 32) := by
  apply BitVec.eq_of_toNat_eq
  simp [cksumSymbol, Nat.shiftRight_eq_div_pow]

/-! ### The statements -/

/-- Settles O35: the clear writes the cleared registers and nothing else, and has no check. -/
theorem bchClrStartsACall : Obligations.BchClrStartsACall :=
  ⟨decode_rowMatch (i := .bchClr) rfl, exec_eq_execFor _, execFor_bchClr⟩

/-- Settles O36: the two checks, then one absorb step in the same phase. -/
theorem bchHrphAbsorbsTheHighPart : Obligations.BchHrphAbsorbsTheHighPart := by
  refine ⟨fun c => decode_rowMatch_or_operand (i := .bchHrph c) rfl, fun c => exec_eq_execFor _, fun cfg c s =>
    ⟨guardBch_of_halted, fun h hp => guardBch_of_refused h (mt List.mem_singleton.mp hp), fun h hp => ?_⟩⟩
  rw [execFor_bchHrph, execBchHrphFor, guardBch_of_accepted h (List.mem_singleton.mpr hp), hrpHigh_eq_div]; rfl

/-- Settles O37: the two checks, then one absorb step of zero and the next phase. -/
theorem bchHsepAbsorbsTheSeparator : Obligations.BchHsepAbsorbsTheSeparator := by
  refine ⟨decode_rowMatch (i := .bchHsep) rfl, exec_eq_execFor _, fun cfg s =>
    ⟨guardBch_of_halted, fun h hp => guardBch_of_refused h (mt List.mem_singleton.mp hp), fun h hp => ?_⟩⟩
  rw [execFor_bchHsep, execBchHsepFor, guardBch_of_accepted h (List.mem_singleton.mpr hp)]; rfl

/-- Settles O38: the two checks, then one absorb step in the same phase. -/
theorem bchHrplAbsorbsTheLowPart : Obligations.BchHrplAbsorbsTheLowPart := by
  refine ⟨fun c => decode_rowMatch_or_operand (i := .bchHrpl c) rfl, fun c => exec_eq_execFor _, fun cfg c s =>
    ⟨guardBch_of_halted, fun h hp => guardBch_of_refused h (mt List.mem_singleton.mp hp), fun h hp => ?_⟩⟩
  rw [execFor_bchHrpl, execBchHrplFor, guardBch_of_accepted h (List.mem_singleton.mpr hp), hrpLow_eq_mod]; rfl

/-- Settles O39: the three checks in their order, then one absorb step and phase `DATA`. -/
theorem bchSymAbsorbsASymbol : Obligations.BchSymAbsorbsASymbol := by
  refine ⟨fun v => decode_rowMatch_or_operand (i := .bchSym v) rfl, fun v => exec_eq_execFor _, fun cfg v s =>
    ⟨guardBch_of_halted, fun h hlo hdata => guardBch_of_refused h (mt List.mem_pair.mp (not_or.mpr ⟨hlo, hdata⟩)),
      fun h hp hv => ?_, fun h hp hv => ?_⟩⟩
  · rw [execFor_bchSym, execBchSymFor, guardBch_of_accepted h (List.mem_pair.mpr hp), symbol?_of_gt hv]; rfl
  · rw [execFor_bchSym, execBchSymFor, guardBch_of_accepted h (List.mem_pair.mpr hp), symbol?_of_le hv,
      BitVec.ofNat_toNat]; rfl

/-- Settles O40: the two checks, then six absorb steps of zero and phase `DONE`. -/
theorem bchFinAbsorbsSixZeros : Obligations.BchFinAbsorbsSixZeros := by
  refine ⟨decode_rowMatch (i := .bchFin) rfl, exec_eq_execFor _, fun cfg s =>
    ⟨guardBch_of_halted, fun h hlo hdata => guardBch_of_refused h (mt List.mem_pair.mp (not_or.mpr ⟨hlo, hdata⟩)),
      fun h hp => ?_⟩⟩
  rw [execFor_bchFin, execBchFinFor, guardBch_of_accepted h (List.mem_pair.mpr hp)]; rfl

/-- Settles O41: the three checks in their order, then the symbol's five bits by division, nothing written. -/
theorem bchCksumReturnsASymbol : Obligations.BchCksumReturnsASymbol := by
  refine ⟨fun i => decode_rowMatch_or_operand (i := .bchCksum i) rfl, fun i => exec_eq_execFor _, fun cfg i s =>
    ⟨guardBch_of_halted, fun h hp => guardBch_of_refused h (mt List.mem_singleton.mp hp),
      fun h hp hi => ?_, fun h hp hi => ?_⟩⟩
  · rw [execFor_bchCksum, execBchCksumFor, guardBch_of_accepted h (List.mem_singleton.mpr hp), cksumIndex?_of_gt hi]
    rfl
  · rw [execFor_bchCksum, execBchCksumFor, guardBch_of_accepted h (List.mem_singleton.mpr hp), cksumIndex?_of_le hi]
    simp only [setWidth_cksumSymbol]
    rfl

/-- Settles O42: the two checks, then the test of the residue, which writes nothing whatever it answers. -/
theorem bchVerifyTestsTheResidue : Obligations.BchVerifyTestsTheResidue := by
  refine ⟨decode_rowMatch (i := .bchVerify) rfl, exec_eq_execFor _, fun cfg s =>
    ⟨guardBch_of_halted, fun h hp => guardBch_of_refused h (mt List.mem_singleton.mp hp),
      fun h hp hc => ?_, fun h hp hc => ?_⟩⟩
  · rw [execFor_bchVerify, execBchVerifyFor, guardBch_of_accepted h (List.mem_singleton.mpr hp), if_pos hc]; rfl
  · rw [execFor_bchVerify, execBchVerifyFor, guardBch_of_accepted h (List.mem_singleton.mpr hp), if_neg hc]; rfl

/-- Settles O43: `out0` is the view by the places of its fields, the phase as its code. -/
theorem bchStReturnsTheView : Obligations.BchStReturnsTheView := by
  refine ⟨decode_rowMatch (i := .bchSt) rfl, fun s => ?_⟩
  rw [exec_bchSt, BchRegs.view0, statusByte_eq_ofNat, BitVec.toNat_setWidth_of_le (by decide)]; rfl

/-- A `BCH` command that passes the halted check, the phase check and the range check executes (rule R70). -/
theorem execFor_bch_executes (cfg : Cfg) {i : Instr} {s : State} (hi : i.target = .bch)
    (hrun : s.bch.err = false ∨ i = .bchClr ∨ i = .bchSt) (hp : s.bch.phase ∈ i.phases) (hr : i.inRange = true) :
    ∃ t r, execFor cfg i s = .next t ∧ t.responses = s.responses ++ [r] ∧ r.status = .ok ∧
      t.bch.phase = i.nextPhase s.bch.phase ∧ (s.bch.err = false → t.bch.err = false) := by
  obtain ⟨h, hc, hst, _⟩ | ⟨_, hn, _⟩ | ⟨_, _, hn, _⟩ | ⟨_, _, _, y, r, hok, e, herr, _, hphase, _⟩ :=
    execFor_bch_cases cfg i s hi
  · simp [h, hc, hst] at hrun
  · exact absurd hp hn
  · simp [hr] at hn
  · refine ⟨_, r, e, rfl, hok, hphase, fun h => herr.trans ?_⟩
    split
    · rfl
    · exact h

/-- Settles O33: what passes every check executes, and the phase check is the only one an unhalted command in another
phase reaches. -/
theorem phaseTable : Obligations.PhaseTable := by
  refine ⟨fun cfg i s hi h hp hr => ?_, fun cfg i s hi h hp => ?_, fun cfg i s hi => ?_⟩
  · obtain ⟨t, r, e, hresp, hok, hphase, herr⟩ := execFor_bch_executes cfg hi (.inl h) hp hr
    exact ⟨t, r, e, hresp, hok, hphase, herr h⟩
  · obtain ⟨h', _⟩ | ⟨_, _, e⟩ | ⟨_, hp', _⟩ | ⟨_, _, hp', _⟩ := execFor_bch_cases cfg i s hi
    · simp [h] at h'
    · exact e
    · exact absurd hp' hp
    · exact absurd hp' hp
  · have hrow : i.target = .bch ∧ s.bch.phase ∈ i.phases ∧ i.inRange = true := by
      obtain rfl | rfl := hi
      · exact ⟨rfl, mem_all _, rfl⟩
      · exact ⟨rfl, mem_all _, rfl⟩
    obtain ⟨htarget, hp, hr⟩ := hrow
    obtain ⟨t, r, e, hresp, hok, hphase, _⟩ := execFor_bch_executes cfg htarget (.inr hi) hp hr
    exact ⟨t, r, e, hresp, hok, hphase⟩

end Sys2Proof.Machine
end

section
/-! SUPPORT. The commands of `MAP`: the character of a symbol and the symbol of a character (rules R83 to R86). -/

namespace Sys2Proof.Machine

@[simp] theorem exec_mapS2c (v : Byte) (s : State) : exec (.mapS2c v) s = execMapS2c v s := rfl

@[simp] theorem exec_mapC2s (c : Byte) (s : State) : exec (.mapC2s c) s = execMapC2s c s := rfl

theorem execMapC2s_of_charsetInv {c : Byte} {x : Sym} (h : charsetInv c = some x) (s : State) :
    execMapC2s c s = answer (.ok1 (x.setWidth 8)) s := by
  rw [execMapC2s, h]

/-- The table's indices are the symbols, and its entry at an index is that symbol's character. -/
theorem charset_getElem?_eq_some {k : Nat} {c : Byte} (h : charset[k]? = some c) :
    k < 32 ∧ charOf (.ofNat 5 k) = c := by
  obtain ⟨(hk : k < 32), _⟩ := List.getElem?_eq_some_iff.mp h
  have hentry : charset[k]? = some (charOf (.ofNat 5 k)) := by
    simpa [Nat.mod_eq_of_lt hk] using charOf_mem_charset (.ofNat 5 k)
  exact ⟨hk, Option.some.inj (hentry.symm.trans h)⟩

/-- Settles O45: the range check, then the table's entry, nothing written. -/
theorem mapS2cReturnsTheCharacter : Obligations.MapS2cReturnsTheCharacter := by
  refine ⟨fun v => decode_rowMatch_or_operand (i := .mapS2c v) rfl, fun v s => ⟨fun hv => ?_, fun c hc => ?_⟩⟩
  · rw [exec_mapS2c, execMapS2c, symbol?_of_gt hv]; rfl
  · obtain ⟨hv, rfl⟩ := charset_getElem?_eq_some hc
    rw [exec_mapS2c, execMapS2c, symbol?_of_le (Nat.le_of_lt_succ hv), BitVec.ofNat_toNat]; rfl

/-- Settles O46: a code in the table is the character of the symbol at its index, and the inverse gives that symbol
back. -/
theorem mapC2sReturnsTheSymbol : Obligations.MapC2sReturnsTheSymbol := by
  refine ⟨fun c => decode_rowMatch_or_operand (i := .mapC2s c) rfl, fun c s => ⟨fun hc => ?_, fun k hk => ?_⟩⟩
  · rw [exec_mapC2s, execMapC2s, charsetInv_eq_none hc]; rfl
  · obtain ⟨hlt, rfl⟩ := charset_getElem?_eq_some hk
    rw [exec_mapC2s, execMapC2s_of_charsetInv (charsetInv_charOf _),
      BitVec.setWidth_ofNat_of_le_of_lt (by decide) hlt]; rfl

end Sys2Proof.Machine
end

section
/-! SUPPORT. The commands of `SYS`: the no-operation and the reset of every register (rules R88, R89). -/

namespace Sys2Proof.Machine

@[simp] theorem exec_sysNop (s : State) : exec .sysNop s = answer .ok s := rfl

/-- Settles O20: the command is its response and nothing else. -/
theorem sysNopDoesNothing : Obligations.SysNopDoesNothing :=
  ⟨decode_rowMatch (i := .sysNop) rfl, exec_sysNop⟩

/-- Settles O21: the command has no check, and its response follows the clear of every unit. -/
theorem sysRstallResetsEveryRegister : Obligations.SysRstallResetsEveryRegister :=
  ⟨decode_rowMatch (i := .sysRstall) rfl, exec_eq_execFor _, execFor_sysRstall⟩

end Sys2Proof.Machine
end

section
/-! SUPPORT. The checks of rule R97 against what a command does: it executes exactly when none fails, and otherwise ends
with the status of the first that fails, which halts its unit or nothing (rules R94, R95, R97). -/

namespace Sys2Proof.Machine

/-! ### The units that halt -/

/-- The target of a unit's commands. -/
def HaltingUnit.target : HaltingUnit → Target
  | .r58 => .r58
  | .bch => .bch

/-- The unit's `CLR`. -/
def HaltingUnit.clr : HaltingUnit → Instr
  | .r58 => .r58Clr
  | .bch => .bchClr

/-- The unit's `ST`. -/
def HaltingUnit.st : HaltingUnit → Instr
  | .r58 => .r58St
  | .bch => .bchSt

/-- The unit's `err`. -/
def State.halted (u : HaltingUnit) (s : State) : Bool :=
  match u with
  | .r58 => s.r58.err
  | .bch => s.bch.err

/-! ### The first failing check -/

/-- The status of the first check of a list that fails. -/
def firstFailed (checks : List (Bool × Status)) : Option Status := (checks.find? (fun p => p.1)).map (fun p => p.2)

@[simp] theorem firstFailed_nil : firstFailed [] = none := rfl

@[simp] theorem firstFailed_cons (b : Bool) (e : Status) (l : List (Bool × Status)) :
    firstFailed ((b, e) :: l) = if b then some e else firstFailed l := by
  cases b <;> rfl

/-- The halted check is the first one, and only `CLR` and `ST` are exempt from it (rules R95, R97). -/
theorem firstFailed_of_halted {u : HaltingUnit} {i : Instr} {s : State} (h : s.halted u = true)
    (hi : i.target = u.target) (hclr : i ≠ u.clr) (hst : i ≠ u.st) : firstFailed (i.checks s) = some .eHalted := by
  cases u <;> simp_all [Instr.checks, HaltingUnit.target, HaltingUnit.clr, HaltingUnit.st, State.halted]

/-- The checks that concern a command of `BCH`. -/
theorem firstFailed_bch {i : Instr} (hi : i.target = .bch) (s : State) :
    firstFailed (i.checks s) =
      if i ≠ .bchClr ∧ i ≠ .bchSt ∧ s.bch.err then some .eHalted
      else if s.bch.phase ∉ i.phases then some .eSeq
      else if i.inRange = false then some .eRange
      else none := by
  have hfin : i ≠ .r58Fin := fun h => by simp [h, Instr.target] at hi
  have hchar : i.unknownChar = false := by
    cases i
    case mapC2s => cases hi
    all_goals rfl
  simp [Instr.checks, hi, hfin, hchar]

/-! ### How a command ends -/

/-- What the first failing check makes of a command: without one it executes, with one it ends in that status, and
it halts its unit when the unit can halt and the status is one that halts. -/
inductive EndsAsChecked (i : Instr) (s : State) : Result → Prop where
  | executes {t : State} {r : Response} (hf : firstFailed (i.checks s) = none)
      (hresp : t.responses = s.responses ++ [r]) (hok : r.status = .ok) : EndsAsChecked i s (.next t)
  | refuses {e : Status} (hf : firstFailed (i.checks s) = some e)
      (hu : e.halts = true → ∀ u : HaltingUnit, i.target ≠ u.target) : EndsAsChecked i s (raise e s)
  | halts {e : Status} (u : HaltingUnit) (hf : firstFailed (i.checks s) = some e) (he : e.halts = true)
      (hu : i.target = u.target) : EndsAsChecked i s (raiseHalt u e s)

theorem push85_status (r : R85Regs) (b : Byte) : (push85 r b).2.status = .ok := by
  simp only [push85]; split <;> rfl

theorem flush85_status (r : R85Regs) : (flush85 r).status = .ok := by
  unfold flush85; split <;> rfl

theorem push58_status (r : R58Regs) (v : Sym) : (push58 r v).2.status = .ok := by
  simp only [push58]; split <;> rfl

theorem execR58Push_endsAsChecked (v : Byte) (s : State) : EndsAsChecked (.r58Push v) s (execR58Push v s) := by
  obtain ⟨h, e⟩ | ⟨h, hv, e⟩ | ⟨h, hv, e⟩ := execR58Push_cases v s <;> rw [e]
  · exact .refuses (firstFailed_of_halted (u := .r58) h rfl nofun nofun) nofun
  · exact .halts .r58 (by simp [Instr.checks, Instr.target, Instr.inRange, h, hv]) rfl rfl
  · exact .executes (by simp [Instr.checks, Instr.target, Instr.inRange, Instr.unknownChar, h, hv]) rfl
      (push58_status _ _)

theorem execR58Fin_endsAsChecked (s : State) : EndsAsChecked .r58Fin s (execR58Fin s) := by
  obtain ⟨h, e⟩ | ⟨h, hr, e⟩ | ⟨h, hr, hb, e⟩ | ⟨h, hr, hb, e⟩ := execR58Fin_cases s <;> rw [e]
  · exact .refuses (firstFailed_of_halted (u := .r58) h rfl nofun nofun) nofun
  · exact .halts .r58 (by simp [Instr.checks, Instr.target, Instr.inRange, h, show s.r58.rem ≠ 0#7 from hr]) rfl rfl
  · exact .halts .r58 (by simp [Instr.checks, Instr.target, Instr.inRange, h, hr, hb]) rfl rfl
  · exact .executes (by simp [Instr.checks, Instr.target, Instr.inRange, Instr.unknownChar, h, hr, hb]) rfl rfl

theorem execFor_bch_endsAsChecked (cfg : Cfg) {i : Instr} (hi : i.target = .bch) (s : State) :
    EndsAsChecked i s (execFor cfg i s) := by
  have hf := firstFailed_bch hi s
  obtain ⟨h, hclr, hst, e⟩ | ⟨h, hp, e⟩ | ⟨h, hp, hr, e⟩ | ⟨hrun, hr, hp, y, r, hok, e, _⟩ :=
    execFor_bch_cases cfg i s hi <;> rw [e]
  · exact .refuses (by simp [hf, h, hclr, hst]) nofun
  · exact .halts .bch (by simp [hf, h, hp]) rfl hi
  · exact .halts .bch (by simp [hf, h, hp, hr]) rfl hi
  · have hrefuse : ¬ (i ≠ .bchClr ∧ i ≠ .bchSt ∧ s.bch.err = true) := by
      obtain (h | h) | h := hrun <;> simp [h]
    exact .executes (by rw [hf, if_neg hrefuse]; simp [hp, hr]) rfl hok

theorem execMapS2c_endsAsChecked (v : Byte) (s : State) : EndsAsChecked (.mapS2c v) s (execMapS2c v s) := by
  obtain ⟨hv, e⟩ | ⟨hv, e⟩ := execMapS2c_cases v s <;> rw [e]
  · exact .refuses (by simp [Instr.checks, Instr.target, Instr.inRange, hv]) fun _ u => by cases u <;> nofun
  · exact .executes (by simp [Instr.checks, Instr.target, Instr.inRange, Instr.unknownChar, hv]) rfl rfl

/-- The range of the inverse table is the charset (rule R85). -/
theorem charsetInv_eq_none_iff (c : Byte) : charsetInv c = none ↔ c ∉ charset := by
  refine ⟨fun h hc => ?_, charsetInv_eq_none⟩
  obtain ⟨k, hk⟩ := List.mem_iff_getElem?.mp hc
  rw [← (charset_getElem?_eq_some hk).2, charsetInv_charOf] at h
  cases h

theorem execMapC2s_endsAsChecked (c : Byte) (s : State) : EndsAsChecked (.mapC2s c) s (execMapC2s c s) := by
  have hc := charsetInv_eq_none_iff c
  obtain ⟨h, e⟩ | ⟨x, h, e⟩ := execMapC2s_cases c s <;> rw [e]
  · exact .refuses (by simp [Instr.checks, Instr.target, Instr.inRange, Instr.unknownChar, hc.mp h]) nofun
  · have hmem : c ∈ charset := by simpa [h] using hc
    exact .executes (by simp [Instr.checks, Instr.target, Instr.inRange, Instr.unknownChar, hmem]) rfl rfl

/-- R97: every command ends as its checks say. -/
theorem execFor_endsAsChecked (cfg : Cfg) (i : Instr) (s : State) : EndsAsChecked i s (execFor cfg i s) := by
  cases i with
  | sysNop | sysRstall | r85Clr | r85St | r58Clr | r58St => exact .executes rfl rfl rfl
  | r85Push b => exact .executes rfl rfl (push85_status _ _)
  | r85Flush => exact .executes rfl rfl (flush85_status _)
  | r58Push v => exact execR58Push_endsAsChecked v s
  | r58Fin => exact execR58Fin_endsAsChecked s
  | bchClr | bchHrph | bchHsep | bchHrpl | bchSym | bchFin | bchCksum | bchVerify | bchSt =>
    exact execFor_bch_endsAsChecked cfg rfl s
  | mapS2c v => exact execMapS2c_endsAsChecked v s
  | mapC2s c => exact execMapC2s_endsAsChecked c s

/-- Settles O19: a reserved word never reaches a check, and a command ends as its checks say. -/
theorem firstFailedCheckIsReported : Obligations.FirstFailedCheckIsReported := by
  intro cfg w s
  unfold runWordFor runWordBy
  cases decode w with
  | error _ => exact ⟨_, _, rfl, rfl, rfl⟩
  | ok i =>
    change ∃ (t : State) (r : Response), execFor cfg i s = .next t ∧ _ ∧ r.status = (firstFailed (i.checks s)).getD .ok
    have hend := execFor_endsAsChecked cfg i s
    generalize execFor cfg i s = res at hend
    cases hend with
    | executes hf hresp hok => exact ⟨_, _, rfl, hresp, by rw [hf, hok]; rfl⟩
    | refuses hf _ => exact ⟨_, _, rfl, rfl, by rw [hf]; rfl⟩
    | halts u hf _ _ => exact ⟨_, _, rfl, by cases u <;> rfl, by rw [hf]; rfl⟩

/-! ### What a failed command writes -/

/-- R94: a command that answers with an error has halted its unit with it, or has written nothing. -/
theorem execFor_failed_cases {cfg : Cfg} {i : Instr} {s t : State} {r : Response} (h : execFor cfg i s = .next t)
    (hresp : t.responses = s.responses ++ [r]) (hr : r.status ≠ .ok) :
    (∃ u : HaltingUnit, i.target = u.target ∧ r.status.halts = true ∧ t = (s.halt u r.status).respond r) ∨
    ((r.status.halts = true → ∀ u : HaltingUnit, i.target ≠ u.target) ∧ t = s.respond r) := by
  have hend := execFor_endsAsChecked cfg i s
  generalize execFor cfg i s = res at h hend
  cases hend with
  | executes hf hresp' hok =>
    cases h
    obtain rfl : r = _ := by simpa [hresp'] using hresp.symm
    exact absurd hok hr
  | refuses hf hu =>
    cases h
    obtain rfl : r = _ := by simpa using hresp.symm
    exact .inr ⟨hu, rfl⟩
  | halts u hf he hu =>
    cases h
    obtain rfl : r = .error _ := by cases u <;> simpa using hresp.symm
    exact .inl ⟨u, hu, he, rfl⟩

/-- Settles O16: of the two ways a command fails each clause admits one. -/
theorem failedCommandWritesOnlyTheHalt : Obligations.FailedCommandWritesOnlyTheHalt := by
  refine ⟨fun cfg i s t r h hresp hr => ?_, fun cfg w s e hw => by simp only [runWordFor, runWordBy, hw]; rfl⟩
  obtain ⟨u, hu, he, rfl⟩ | ⟨hu, rfl⟩ := execFor_failed_cases h hresp hr
  · cases u with
    | r58 =>
      change i.target = .r58 at hu
      exact ⟨fun _ _ => rfl, by simp [hu], by simp [hu, he]⟩
    | bch =>
      change i.target = .bch at hu
      exact ⟨by simp [hu], fun _ _ => rfl, by simp [hu, he]⟩
  · exact ⟨fun hi he => absurd hi (hu he .r58), fun hi he => absurd hi (hu he .bch), fun _ => rfl⟩

end Sys2Proof.Machine
end

section
/-! SUPPORT. The halted state of a unit: what it refuses, and what enters and leaves it (rules R17, R95, R96). -/

namespace Sys2Proof.Machine

/-! ### While a unit is halted -/

/-- R95: a halted unit refuses every command but `CLR` and `ST`. -/
theorem execFor_of_halted (cfg : Cfg) {u : HaltingUnit} {i : Instr} {s : State} (h : s.halted u = true)
    (hi : i.target = u.target) (hclr : i ≠ u.clr) (hst : i ≠ u.st) : execFor cfg i s = raise .eHalted s := by
  have hfirst := firstFailed_of_halted h hi hclr hst
  have hend := execFor_endsAsChecked cfg i s
  generalize execFor cfg i s = res at hend
  cases hend with
  | executes hf => simp [hfirst] at hf
  | refuses hf => simp [Option.some.inj (hfirst.symm.trans hf)]
  | halts u hf he => simp [← Option.some.inj (hfirst.symm.trans hf), Status.halts] at he

/-- The flag and the code in a status view (rule R19). -/
theorem statusByte_halted (code : BitVec 4) (low : BitVec 3) :
    (statusByte true code low).toNat / 128 = 1 ∧ (statusByte true code low).toNat / 8 % 16 = code.toNat := by
  rw [toNat_statusByte, if_pos rfl]
  have hcode := code.isLt
  have hlow := low.isLt
  omega

theorem sameUnit_withUnit {u v : Target} (h : u ≠ v) (s x : State) : sameUnit u s (s.withUnit v x) := by
  cases u with
  | r85 => exact (State.withUnit_r85 h.symm s x).symm
  | r58 => exact (State.withUnit_r58 h.symm s x).symm
  | bch => exact (State.withUnit_bch h.symm s x).symm
  | map | sys => trivial

/-- The registers of two different units are written independently. -/
theorem State.withUnit_comm {u v : Target} (h : u ≠ v) (s x y : State) :
    (s.withUnit v y).withUnit u x = (s.withUnit u x).withUnit v y := by
  cases u <;> cases v
  case r85.r85 | r58.r58 | bch.bch => exact absurd rfl h
  all_goals rfl

theorem State.respond_withUnit (v : Target) (s x : State) (r : Response) :
    (s.withUnit v x).respond r = (s.respond r).withUnit v x := by
  cases v <;> rfl

theorem State.clearAll_withUnit (cfg : Cfg) (v : Target) (s x : State) :
    (s.withUnit v x).clearAll cfg = s.clearAll cfg := by
  cases v <;> rfl

/-- A command does what it does whatever the registers of another unit hold: the two outcomes differ at most there. -/
theorem execFor_withUnit (cfg : Cfg) {i : Instr} {v : Target} (hi : i.target ≠ v) (s x : State) :
    ∃ t y, execFor cfg i s = .next t ∧ execFor cfg i (s.withUnit v x) = .next (t.withUnit v y) := by
  by_cases hr : i = .sysRstall
  · subst hr
    refine ⟨_, (s.clearAll cfg).respond .ok, execFor_sysRstall cfg s, ?_⟩
    rw [State.withUnit_of_sameUnit (sameUnit_refl v _), execFor_sysRstall, State.clearAll_withUnit]
  · obtain ⟨t, r, ht⟩ := execFor_actsWithin cfg i hr s
    refine ⟨_, x, ht s (sameUnit_refl _ s), ?_⟩
    rw [ht _ (sameUnit_withUnit hi s x), State.withUnit_comm hi, State.respond_withUnit]

/-- Settles O17: the halted check comes first, the views show the halt, and no other command reads it. -/
theorem haltedUnitRefuses : Obligations.HaltedUnitRefuses := by
  refine ⟨fun cfg i s => execFor_of_halted cfg (u := .r58), fun cfg i s => execFor_of_halted cfg (u := .bch),
    fun s h => ⟨_, exec_r58St s, rfl, ?_⟩, fun s h => ⟨_, exec_bchSt s, rfl, ?_⟩, fun cfg i s => ?_⟩
  · simpa only [Response.ok2, R58Regs.view0, h] using statusByte_halted _ _
  · simpa only [Response.ok2, BchRegs.view0, h] using statusByte_halted _ _
  · obtain ⟨t, ht, _⟩ := execFor_writes_own_unit cfg i s
    refine ⟨t, ht, fun hi x => ?_, fun hi x => ?_⟩
    · obtain ⟨t', y, ht', hx⟩ := execFor_withUnit cfg hi s (s.setR58 x)
      cases ht.symm.trans ht'
      exact ⟨_, hx, rfl, rfl, rfl⟩
    · obtain ⟨t', y, ht', hx⟩ := execFor_withUnit cfg hi s (s.setBch x)
      cases ht.symm.trans ht'
      exact ⟨_, hx, rfl, rfl, rfl⟩

/-! ### Into the halted state and out of it -/

/-- The unit holds its reset values (rules R23, R101). -/
def State.isCleared (cfg : Cfg) (u : HaltingUnit) (s : State) : Prop :=
  match u with
  | .r58 => s.r58 = .cleared
  | .bch => s.bch = .cleared cfg

/-- The unit's `code`. -/
def State.haltCode (u : HaltingUnit) (s : State) : BitVec 4 :=
  match u with
  | .r58 => s.r58.code
  | .bch => s.bch.code

/-- The inputs that clear a unit (rule R101). -/
def HaltingUnit.clearingInputs (u : HaltingUnit) : List HostInput :=
  [.command (encode u.clr), .command (encode .sysRstall), .hardwareReset]

theorem State.halted_of_isCleared {cfg : Cfg} {u : HaltingUnit} {s : State} (h : s.isCleared cfg u) :
    s.halted u = false := by
  cases u with
  | r58 => exact congrArg R58Regs.err h
  | bch => exact congrArg BchRegs.err h

theorem State.isCleared_clearAll (cfg : Cfg) (u : HaltingUnit) (s : State) : (s.clearAll cfg).isCleared cfg u := by
  cases u <;> rfl

theorem State.haltCode_halt (u : HaltingUnit) (e : Status) (s : State) : (s.halt u e).haltCode u = e.code := by
  cases u <;> rfl

/-- A command of the unit itself keeps the flag, halts the unit, or is its `CLR`. -/
theorem execFor_own_halted_cases (cfg : Cfg) {u : HaltingUnit} {i : Instr} (s : State) (hi : i.target = u.target) :
    (∃ t, execFor cfg i s = .next t ∧ t.halted u = s.halted u) ∨
    (∃ e, e.halts = true ∧ execFor cfg i s = raiseHalt u e s) ∨
    (∃ t, execFor cfg i s = .next t ∧ i = u.clr ∧ t.isCleared cfg u) := by
  by_cases hclr : i = u.clr
  · subst hclr
    cases u <;> exact .inr (.inr ⟨_, rfl, rfl, rfl⟩)
  cases u with
  | r58 =>
    obtain ⟨_, _, _, e⟩ | ⟨_, x, hx, e⟩ | ⟨y, r, _, e, herr⟩ := execFor_r58_cases cfg i s hi
    · exact .inl ⟨_, e, rfl⟩
    · have hhalts : ∀ x ∈ [Status.eRange, .ePadNonzero, .ePadExcess], x.halts = true := by decide
      exact .inr (.inl ⟨x, hhalts x hx, e⟩)
    · exact .inl ⟨_, e, herr.trans (if_neg hclr)⟩
  | bch =>
    obtain ⟨_, _, _, e⟩ | ⟨_, _, e⟩ | ⟨_, _, _, e⟩ | ⟨_, _, _, y, r, _, e, herr, _⟩ := execFor_bch_cases cfg i s hi
    · exact .inl ⟨_, e, rfl⟩
    · exact .inr (.inl ⟨_, rfl, e⟩)
    · exact .inr (.inl ⟨_, rfl, e⟩)
    · exact .inl ⟨_, e, herr.trans (if_neg hclr)⟩

/-- Everything a command can do to a unit's flag: keep it, halt the unit, or clear the unit. -/
theorem execFor_halted_cases {cfg : Cfg} {i : Instr} {s t : State} (h : execFor cfg i s = .next t) (u : HaltingUnit) :
    t.halted u = s.halted u ∨
    (i.target = u.target ∧ ∃ e, e.halts = true ∧ t = (s.halt u e).respond (.error e)) ∨
    ((i = u.clr ∨ i = .sysRstall) ∧ t.isCleared cfg u) := by
  by_cases hi : i.target = u.target
  · obtain ⟨t', e, hkeep⟩ | ⟨e, he, e'⟩ | ⟨t', e, hclr, hcleared⟩ := execFor_own_halted_cases cfg s hi
    · cases h.symm.trans e
      exact .inl hkeep
    · cases h.symm.trans e'
      exact .inr (.inl ⟨hi, e, he, rfl⟩)
    · cases h.symm.trans e
      exact .inr (.inr ⟨.inl hclr, hcleared⟩)
  by_cases hr : i = .sysRstall
  · subst hr
    cases h
    exact .inr (.inr ⟨.inr rfl, State.isCleared_clearAll cfg u s⟩)
  · obtain ⟨t', e, _, hkeep⟩ := execFor_writes_own_unit cfg i s
    cases h.symm.trans e
    obtain ⟨_, h58, hbch⟩ := hkeep hr
    cases u with
    | r58 => exact .inl (congrArg R58Regs.err (h58 hi))
    | bch => exact .inl (congrArg BchRegs.err (hbch hi))

/-- Everything a step can do to a unit's flag: keep it, halt the unit by one of its own commands, or clear the unit. -/
theorem stepFor_halted_cases {cfg : Cfg} {s t : State} (h : stepFor cfg s = .next t) (u : HaltingUnit) :
    t.halted u = s.halted u ∨
    (t.halted u = true ∧ ∃ w i rest r, s.inputs = .command w :: rest ∧ decode w = .ok i ∧ i.target = u.target ∧
      t.responses = s.responses ++ [r] ∧ r.status.halts = true ∧ t.haltCode u = r.status.code) ∨
    (t.isCleared cfg u ∧ ∃ x rest, s.inputs = x :: rest ∧ x ∈ u.clearingInputs) := by
  obtain ⟨_, rfl⟩ | ⟨rest, hin, rfl⟩ | ⟨w, rest, _, _, _, rfl⟩ | ⟨w, rest, i, hin, hw, hrun⟩ := stepBy_cases h
  · exact .inl rfl
  · exact .inr (.inr ⟨State.isCleared_clearAll cfg u _, _, rest, hin, by simp [HaltingUnit.clearingInputs]⟩)
  · cases u <;> exact .inl rfl
  · obtain hkeep | ⟨hi, e, he, rfl⟩ | ⟨hclr, hcleared⟩ := execFor_halted_cases hrun u
    · cases u <;> exact .inl hkeep
    · refine .inr (.inl ?_)
      cases u <;> exact ⟨rfl, w, i, rest, .error e, hin, hw, hi, rfl, he, rfl⟩
    · refine .inr (.inr ⟨hcleared, _, rest, hin, ?_⟩)
      rw [← encode_of_decode hw]
      obtain rfl | rfl := hclr <;> simp [HaltingUnit.clearingInputs]

/-- R17, R96: only a halting error of a command of its own unit sets a flag. -/
theorem stepFor_halts {cfg : Cfg} {s t : State} (h : stepFor cfg s = .next t) (u : HaltingUnit)
    (hs : s.halted u = false) (ht : t.halted u = true) :
    ∃ w i rest r, s.inputs = .command w :: rest ∧ decode w = .ok i ∧ i.target = u.target ∧
      t.responses = s.responses ++ [r] ∧ r.status.halts = true ∧ t.haltCode u = r.status.code := by
  obtain hkeep | ⟨_, hset⟩ | ⟨hcleared, _⟩ := stepFor_halted_cases h u
  · simp [hs, ht] at hkeep
  · exact hset
  · simp [State.halted_of_isCleared hcleared] at ht

/-- R96: only an input that clears the unit clears a flag. -/
theorem stepFor_clears {cfg : Cfg} {s t : State} (h : stepFor cfg s = .next t) (u : HaltingUnit)
    (hs : s.halted u = true) (ht : t.halted u = false) :
    t.isCleared cfg u ∧ ∃ x rest, s.inputs = x :: rest ∧ x ∈ u.clearingInputs := by
  obtain hkeep | ⟨hset, _⟩ | hclear := stepFor_halted_cases h u
  · simp [hs, ht] at hkeep
  · simp [ht] at hset
  · exact hclear

/-- Settles O18: a step keeps a flag, halts the unit or clears it, for each of the two units. -/
theorem flagsChangeOnlyByHaltAndClear : Obligations.FlagsChangeOnlyByHaltAndClear :=
  fun _ _ _ h => ⟨stepFor_halts h .r58, stepFor_halts h .bch, stepFor_clears h .r58, stepFor_clears h .bch⟩

end Sys2Proof.Machine
end

section
/-! SUPPORT. The word of a command has the fields it was made of, so it decodes to the command (rules R40, R43, R45). -/

namespace Sys2Proof

section
variable (unit op : BitVec 4) (x : Byte)

@[simp] theorem unitField_cmd16 : unitField (cmd16 unit op x) = unit := by
  rw [unitField, cmd16, BitVec.extractLsb'_append_eq_of_le (by decide),
    BitVec.extractLsb'_append_eq_of_le (by decide), BitVec.extractLsb'_eq_self]

@[simp] theorem opField_cmd16 : opField (cmd16 unit op x) = op := by
  rw [opField, cmd16, BitVec.extractLsb'_append_eq_of_le (by decide),
    BitVec.extractLsb'_append_eq_of_add_le (by decide), BitVec.extractLsb'_eq_self]

@[simp] theorem operandField_cmd16 : operandField (cmd16 unit op x) = x := by
  rw [operandField, cmd16, BitVec.extractLsb'_append_eq_of_add_le (by decide), BitVec.extractLsb'_eq_self]

end

/-- Settles O7: the three fields of the word are the command's, and they fix what the word decodes to. -/
theorem decodeInvertsEncode : Obligations.DecodeInvertsEncode := fun _ =>
  decode_of_fields (unitField_cmd16 ..) (opField_cmd16 ..) (operandField_cmd16 ..)

/-- Settles O10: each word is `match` of its command's row, with the operand in `w[7:0]` where the row has one. -/
theorem sampleWordsDecode : Obligations.SampleWordsDecode :=
  ⟨decode_rowMatch (i := .sysRstall) rfl, decode_rowMatch_or_operand (i := .r85Push 0xff) rfl,
    decode_rowMatch_or_operand (i := .r58Push 31) rfl, decode_rowMatch_or_operand (i := .bchHrph 0x61) rfl,
    decode_rowMatch_or_operand (i := .bchCksum 5) rfl, decode_rowMatch_or_operand (i := .mapC2s 0x71) rfl⟩

end Sys2Proof
end

section
/-! SUPPORT. The step and the events that reset registers (rules R5, R36, R101), and what every command answers with. -/

namespace Sys2Proof.Machine

/-! ### The block and the machine with parameters -/

theorem exec_funext : exec = execFor Config.cfg := funext fun i => funext (exec_eq_execFor i)

theorem step_eq_stepFor : step = stepFor Config.cfg := congrArg (stepBy Config.cfg) exec_funext

/-- Settles O57: the arms of the two dispatches agree, and the step and the host's core are built from them alike. -/
theorem blockIsTheMachineAtItsParameters : Obligations.BlockIsTheMachineAtItsParameters := by
  refine ⟨exec_eq_execFor, congrFun step_eq_stepFor, ?_⟩
  rw [core, coreFor, step_eq_stepFor]
  rfl

/-! ### One input -/

section
variable (cfg : Cfg) (run : Instr → State → Result) {s : State} {rest : List HostInput}

theorem stepBy_command {w : CmdWord} {i : Instr} (hin : s.inputs = .command w :: rest) (hw : decode w = .ok i) :
    stepBy cfg run s = run i (s.takeInput rest) := by
  simp only [stepBy, hin, runWordBy, hw]

theorem stepBy_hardwareReset (hin : s.inputs = .hardwareReset :: rest) :
    stepBy cfg run s = .next ((s.takeInput rest).clearAll cfg) := by
  simp only [stepBy, hin, hardwareReset]

theorem stepBy_waits (hin : s.inputs = []) : stepBy cfg run s = .next s := by
  simp only [stepBy, hin]

end

/-- Settles O5: for the block itself and for any parameters. -/
theorem stepRunsTheDecodedCommand : Obligations.StepRunsTheDecodedCommand :=
  fun _ _ _ _ hin hw => ⟨stepBy_command _ _ hin hw, fun _ => stepBy_command _ _ hin hw⟩

/-- No command ends in a fault or a refusal (rule R110). -/
theorem execFor_answers (cfg : Cfg) (i : Instr) (s : State) : ∃ t, execFor cfg i s = .next t := by
  obtain ⟨t, ht, _⟩ := execFor_writes_own_unit cfg i s
  exact ⟨t, ht⟩

theorem stepFor_answers (cfg : Cfg) (s : State) : ∃ t, stepFor cfg s = .next t := by
  cases hin : s.inputs with
  | nil => exact ⟨_, stepBy_waits cfg _ hin⟩
  | cons x rest =>
    cases x with
    | hardwareReset => exact ⟨_, stepBy_hardwareReset cfg _ hin⟩
    | command w =>
      cases hw : decode w with
      | error e => exact ⟨_, stepBy_reserved cfg _ hin hw⟩
      | ok i =>
        obtain ⟨t, ht⟩ := execFor_answers cfg i (s.takeInput rest)
        exact ⟨t, (stepBy_command cfg _ hin hw).trans ht⟩

/-- Settles O6: each of the four things a step can do is a next state, and an empty supply is the wait. -/
theorem everyStepAnswersOrWaits : Obligations.EveryStepAnswersOrWaits := by
  refine ⟨fun s => ⟨?_, fun cfg => stepFor_answers cfg s⟩, fun s hin => ⟨?_, fun cfg => ?_⟩⟩
  · exact step_eq_stepFor ▸ stepFor_answers Config.cfg s
  · exact stepBy_waits _ _ hin
  · exact stepBy_waits _ _ hin

/-- Settles O2: the hardware reset takes its input first; the four commands have no check. -/
theorem resetEventsClearRegisters : Obligations.ResetEventsClearRegisters :=
  fun cfg s => ⟨fun _ hin => stepBy_hardwareReset cfg _ hin, execFor_sysRstall cfg s, rfl, rfl, execFor_bchClr cfg s⟩

end Sys2Proof.Machine
end

section
/-! SUPPORT. The invariants of rule R14, unit by unit: the cleared registers have them and every operation that writes
registers keeps them. -/

namespace Sys2Proof.Machine

/-! ### After a clear -/

theorem R85Regs.cleared_legal : R85Regs.cleared.legal := by decide

theorem R58Regs.cleared_legal : R58Regs.cleared.legal := by decide

theorem BchRegs.cleared_legal (cfg : Cfg) : (BchRegs.cleared cfg).legal :=
  ⟨fun _ => rfl, nofun, BitVec.isLt _⟩

theorem State.clearAll_legal (cfg : Cfg) (s : State) : (s.clearAll cfg).legal :=
  ⟨R85Regs.cleared_legal, R58Regs.cleared_legal, BchRegs.cleared_legal cfg⟩

/-- Settles O3: each unit is in its cleared state. -/
theorem legalAfterReset : Obligations.LegalAfterReset :=
  fun cfg => ⟨R85Regs.cleared_legal, R58Regs.cleared_legal, BchRegs.cleared_legal cfg⟩

/-! ### A canonical leftover after a push -/

/-- The low `m` bits, stored with their count, are a canonical leftover when the register is wide enough. -/
theorem toNat_lowBits_lt (w t m : Nat) : (BitVec.ofNat w (t % 2 ^ m)).toNat < 2 ^ m :=
  (Nat.mod_le _ _).trans_lt (Nat.mod_lt _ (Nat.two_pow_pos m))

theorem push85_legal {r : R85Regs} (h : r.legal) (b : Byte) : (push85 r b).1.legal := by
  obtain ⟨hbits, _⟩ := h
  have hcanon : ∀ t m : Nat, m ≤ 4 → R85Regs.legal ⟨.ofNat 4 (t % 2 ^ m), .ofNat 3 m⟩ := fun t m hm => by
    have hm' : (BitVec.ofNat 3 m).toNat = m := Nat.mod_eq_of_lt (by omega)
    exact ⟨hm'.trans_le hm, by rw [hm']; exact toNat_lowBits_lt 4 t m⟩
  by_cases hn : 10 ≤ r.bits.toNat + 8
  · rw [push85_two b hn]
    exact hcanon _ _ (by omega)
  · rw [push85_one b (Nat.lt_of_not_le hn)]
    exact hcanon _ _ (by omega)

theorem push58_legal {r : R58Regs} (h : r.legal) (v : Sym) : (push58 r v).1.legal := by
  obtain ⟨_, hrem, hrun, hhalt⟩ := h
  by_cases hn : 8 ≤ r.bits.toNat + 5
  · rw [push58_completes v hn]
    have hm : (BitVec.ofNat 3 (r.bits.toNat + 5 - 8)).toNat = r.bits.toNat + 5 - 8 := Nat.mod_eq_of_lt (by omega)
    refine ⟨by omega, ?_, hrun, hhalt⟩
    rw [hm]
    exact toNat_lowBits_lt 7 _ _
  · rw [push58_accumulates v (Nat.lt_of_not_le hn)]
    have hm : (BitVec.ofNat 3 (r.bits.toNat + 5)).toNat = r.bits.toNat + 5 := Nat.mod_eq_of_lt (by omega)
    refine ⟨by omega, ?_, hrun, hhalt⟩
    rw [hm, Nat.pow_add]
    exact (Nat.mod_le _ _).trans_lt (by omega)

/-- Halting keeps the leftover, and every halting status of `R58` has one of the codes of rule R14 (c). -/
theorem R58Regs.halted_legal {r : R58Regs} (h : r.legal) {e : Status} (he : e.code = 4 ∨ e.code = 5 ∨ e.code = 6) :
    R58Regs.legal { r with err := true, code := e.code } := by
  obtain ⟨hbits, hrem, _⟩ := h
  exact ⟨hbits, hrem, nofun, fun _ => he⟩

/-! ### After a command -/

theorem execFor_r85_legal {cfg : Cfg} {i : Instr} {s t : State} (hi : i.target = .r85) (hs : s.r85.legal)
    (h : execFor cfg i s = .next t) : t.r85.legal := by
  cases i <;> cases hi <;> cases h
  case r85Push b => exact push85_legal hs b
  case r85St => exact hs
  all_goals exact R85Regs.cleared_legal

theorem execFor_r58_legal {cfg : Cfg} {i : Instr} {s t : State} (hi : i.target = .r58) (hs : s.r58.legal)
    (h : execFor cfg i s = .next t) : t.r58.legal := by
  cases i <;> cases hi
  case r58Clr => cases h; exact R58Regs.cleared_legal
  case r58St => cases h; exact hs
  case r58Push v =>
    obtain ⟨_, e⟩ | ⟨_, _, e⟩ | ⟨_, _, e⟩ := execR58Push_cases v s <;> cases h.symm.trans e
    · exact hs
    · exact R58Regs.halted_legal hs (.inl rfl)
    · exact push58_legal hs _
  case r58Fin =>
    obtain ⟨_, e⟩ | ⟨_, _, e⟩ | ⟨_, _, _, e⟩ | ⟨_, hrem, _, e⟩ := execR58Fin_cases s <;> cases h.symm.trans e
    · exact hs
    · exact R58Regs.halted_legal hs (.inr (.inl rfl))
    · exact R58Regs.halted_legal hs (.inr (.inr rfl))
    · obtain ⟨_, _, hrun, hhalt⟩ := hs
      exact ⟨Nat.zero_le _, by simp [hrem], hrun, hhalt⟩

theorem execFor_bch_legal {cfg : Cfg} {i : Instr} {s t : State} (hi : i.target = .bch) (hs : s.bch.legal)
    (h : execFor cfg i s = .next t) : t.bch.legal := by
  obtain ⟨_, _, _, e⟩ | ⟨_, _, e⟩ | ⟨_, _, _, e⟩ | ⟨_, _, _, y, r, _, e, herr, hcode, _⟩ :=
    execFor_bch_cases cfg i s hi <;> cases h.symm.trans e
  · exact hs
  · exact ⟨nofun, fun _ => .inl rfl, BitVec.isLt _⟩
  · exact ⟨nofun, fun _ => .inr rfl, BitVec.isLt _⟩
  · by_cases hclr : i = .bchClr
    · rw [if_pos hclr] at herr hcode
      exact ⟨fun _ => hcode, fun hy => Bool.noConfusion (herr.symm.trans hy), BitVec.isLt _⟩
    · rw [if_neg hclr] at herr hcode
      obtain ⟨hrun, hhalt, _⟩ := hs
      exact ⟨fun hy => hcode.trans (hrun (herr.symm.trans hy)), fun hy => hcode ▸ hhalt (herr.symm.trans hy),
        BitVec.isLt _⟩

/-- A command keeps the invariants: its own unit's by the lemma of that unit, the others' because it does not write
them. -/
theorem execFor_legal {cfg : Cfg} {i : Instr} {s t : State} (hs : s.legal) (h : execFor cfg i s = .next t) :
    t.legal := by
  obtain ⟨h85, h58, hbch⟩ := hs
  by_cases hr : i = .sysRstall
  · subst hr
    cases h
    exact State.clearAll_legal cfg s
  obtain ⟨t', e, _, hkeep⟩ := execFor_writes_own_unit cfg i s
  cases h.symm.trans e
  obtain ⟨k85, k58, kbch⟩ := hkeep hr
  refine ⟨?_, ?_, ?_⟩
  · by_cases hi : i.target = .r85
    · exact execFor_r85_legal hi h85 h
    · rw [k85 hi]; exact h85
  · by_cases hi : i.target = .r58
    · exact execFor_r58_legal hi h58 h
    · rw [k58 hi]; exact h58
  · by_cases hi : i.target = .bch
    · exact execFor_bch_legal hi hbch h
    · rw [kbch hi]; exact hbch

theorem stepFor_legal {cfg : Cfg} {s t : State} (hs : s.legal) (h : stepFor cfg s = .next t) : t.legal := by
  obtain ⟨_, rfl⟩ | ⟨rest, _, rfl⟩ | ⟨_, rest, _, _, _, rfl⟩ | ⟨_, rest, i, _, _, hrun⟩ := stepBy_cases h
  · exact hs
  · exact State.clearAll_legal cfg _
  · exact hs
  · exact execFor_legal (s := s.takeInput rest) hs hrun

/-- Settles O4: a step waits, clears every register, answers a reserved word, or runs one command. -/
theorem everyStepKeepsLegal : Obligations.EveryStepKeepsLegal :=
  ⟨fun s _ hs h => stepFor_legal hs (congrFun step_eq_stepFor s ▸ h), fun _ _ _ => stepFor_legal⟩

end Sys2Proof.Machine
end

section
/-! SUPPORT. The text of a command reads back as the command (rule R49). -/

namespace Sys2Proof.Machine

/-! ### The operand -/

theorem digitValue_hexDigit {d : Nat} (h : d < 16) : digitValue 16 (hexDigit d) = some d := by
  interval_cases d <;> decide

theorem digits_hexDigit (acc : Nat) {d : Nat} (h : d < 16) (ds : List Char) :
    digits 16 acc (hexDigit d :: ds) = digits 16 (acc * 16 + d) ds := by
  rw [digits, digitValue_hexDigit h, Option.bind_some]

/-- The two digits printed are the operand's two halves. -/
theorem parseOperand_hex (x : Byte) :
    parseOperand ['0', 'x', hexDigit (x.toNat / 16), hexDigit (x.toNat % 16)] = some x := by
  have hx : x.toNat < 256 := x.isLt
  have hval : (0 * 16 + x.toNat / 16) * 16 + x.toNat % 16 = x.toNat := by omega
  change (digits 16 0 [hexDigit (x.toNat / 16), hexDigit (x.toNat % 16)]).bind byteOf = some x
  have hhigh : x.toNat / 16 < 16 := by omega
  have hlow : x.toNat % 16 < 16 := by omega
  rw [digits_hexDigit 0 hhigh, digits_hexDigit _ hlow, hval, digits, Option.bind_some, byteOf, if_pos hx,
    BitVec.ofNat_toNat, BitVec.setWidth_eq]

/-! ### The name -/

theorem mnemonic_no_space (i : Instr) : ∀ c ∈ (mnemonic i).toList, decide (c ≠ ' ') = true := by
  cases i <;> simp [mnemonic]

theorem takeWhile_mnemonic (i : Instr) (l : List Char) :
    ((mnemonic i).toList ++ ' ' :: l).takeWhile (fun c => c ≠ ' ') = (mnemonic i).toList := by
  rw [List.takeWhile_append_of_pos (mnemonic_no_space i)]
  simp

theorem find_plainCommands {i : Instr} (h : i.operand? = none) :
    plainCommands.find? (fun j => (mnemonic j).toList = (mnemonic i).toList) = some i := by
  cases i <;> cases h <;> decide

theorem find_operandCommands {i : Instr} {x : Byte} (h : i.operand? = some x) :
    (operandCommands x).find? (fun j => (mnemonic j).toList = (mnemonic i).toList) = some i := by
  cases i <;> cases h <;> simp [operandCommands, mnemonic]

theorem parseCommand_printCommand (i : Instr) : parseCommand (printCommand i) = some i := by
  unfold parseCommand printCommand
  cases h : i.operand? with
  | none =>
    simp only [List.append_nil, List.takeWhile_eq_self_iff.mpr (mnemonic_no_space i), List.drop_length]
    exact find_plainCommands h
  | some x =>
    simp only [takeWhile_mnemonic, List.drop_left, parseOperand_hex, Option.bind_some]
    exact find_operandCommands h

/-- Settles O11: the name ends at the space and names one command, and the two digits are the operand; the five examples
are evaluated. -/
theorem commandTextReadsBack : Obligations.CommandTextReadsBack :=
  ⟨parseCommand_printCommand, by decide, by decide, by decide, by decide, by decide⟩

end Sys2Proof.Machine
end

section
/-! SUPPORT. What a response can be: its laws, its status, and when a command repeated returns it again (rules R35, R42,
R93). -/

namespace Sys2Proof.Machine

/-! ### The laws of the record -/

theorem Response.ok_lawful : Response.ok.lawful := by decide

theorem Response.ok1_lawful (a : Byte) : (Response.ok1 a).lawful :=
  ⟨fun h => absurd rfl h, nofun, fun _ => rfl, nofun⟩

theorem Response.ok2_lawful (a b : Byte) : (Response.ok2 a b).lawful :=
  ⟨fun h => absurd rfl h, nofun, nofun, nofun⟩

theorem Response.error_lawful (e : Status) : (Response.error e).lawful :=
  ⟨fun _ => ⟨rfl, rfl, rfl⟩, fun _ => ⟨rfl, rfl⟩, fun _ => rfl, nofun⟩

theorem push85_lawful (r : R85Regs) (b : Byte) : (push85 r b).2.lawful := by
  simp only [push85]
  split
  · exact Response.ok2_lawful _ _
  · exact Response.ok1_lawful _

theorem flush85_lawful (r : R85Regs) : (flush85 r).lawful := by
  unfold flush85
  split
  · exact Response.ok1_lawful _
  · exact Response.ok_lawful

theorem push58_lawful (r : R58Regs) (v : Sym) : (push58 r v).2.lawful := by
  simp only [push58]
  split
  · exact Response.ok1_lawful _
  · exact Response.ok_lawful

/-- The command that ends in `res` at `s` has returned one response, and it obeys the laws of the record. -/
def AnswersLawfully (s : State) (res : Result) : Prop :=
  ∃ t r, res = .next t ∧ t.responses = s.responses ++ [r] ∧ r.lawful

section
variable {s : State} {run : Result}

/-- Answering after any write of registers, which leaves the responses alone. -/
theorem answersLawfully_answer {r : Response} {x : State} (hr : r.lawful) (hx : x.responses = s.responses) :
    AnswersLawfully s (answer r x) :=
  ⟨_, r, rfl, congrArg (· ++ [r]) hx, hr⟩

theorem answersLawfully_raise (e : Status) : AnswersLawfully s (raise e s) :=
  answersLawfully_answer (Response.error_lawful e) rfl

theorem answersLawfully_raiseHalt (u : HaltingUnit) (e : Status) : AnswersLawfully s (raiseHalt u e s) :=
  answersLawfully_answer (Response.error_lawful e) (by cases u <;> rfl)

theorem AnswersLawfully.guardR58 (h : AnswersLawfully s run) : AnswersLawfully s (guardR58 s run) := by
  unfold Machine.guardR58
  split
  · exact answersLawfully_raise _
  · exact h

theorem AnswersLawfully.guardBch (ps : List Phase) (h : AnswersLawfully s run) :
    AnswersLawfully s (guardBch ps s run) := by
  unfold Machine.guardBch
  split
  · exact answersLawfully_raise _
  · split
    · exact h
    · exact answersLawfully_raiseHalt .bch .eSeq

end

theorem execR58Push_answersLawfully (v : Byte) (s : State) : AnswersLawfully s (execR58Push v s) := by
  refine .guardR58 ?_
  split
  · exact answersLawfully_raiseHalt .r58 .eRange
  · exact answersLawfully_answer (push58_lawful _ _) rfl

theorem execR58Fin_answersLawfully (s : State) : AnswersLawfully s (execR58Fin s) := by
  refine .guardR58 ?_
  split
  · exact answersLawfully_raiseHalt .r58 _
  · exact answersLawfully_answer Response.ok_lawful rfl

theorem execBchSymFor_answersLawfully (cfg : Cfg) (v : Byte) (s : State) :
    AnswersLawfully s (execBchSymFor cfg v s) := by
  refine .guardBch _ ?_
  split
  · exact answersLawfully_raiseHalt .bch .eRange
  · exact answersLawfully_answer Response.ok_lawful rfl

theorem execBchCksumFor_answersLawfully (cfg : Cfg) (i : Byte) (s : State) :
    AnswersLawfully s (execBchCksumFor cfg i s) := by
  refine .guardBch _ ?_
  split
  · exact answersLawfully_raiseHalt .bch .eRange
  · exact answersLawfully_answer (Response.ok1_lawful _) rfl

theorem execMapS2c_answersLawfully (v : Byte) (s : State) : AnswersLawfully s (execMapS2c v s) := by
  unfold execMapS2c
  split
  · exact answersLawfully_raise _
  · exact answersLawfully_answer (Response.ok1_lawful _) rfl

theorem execMapC2s_answersLawfully (c : Byte) (s : State) : AnswersLawfully s (execMapC2s c s) := by
  unfold execMapC2s
  split
  · exact answersLawfully_raise _
  · exact answersLawfully_answer (Response.ok1_lawful _) rfl

theorem execFor_answersLawfully (cfg : Cfg) (i : Instr) (s : State) : AnswersLawfully s (execFor cfg i s) := by
  cases i with
  | sysNop | sysRstall | r85Clr | r58Clr | bchClr => exact answersLawfully_answer Response.ok_lawful rfl
  | r85St | r58St | bchSt => exact answersLawfully_answer (Response.ok2_lawful _ _) rfl
  | r85Push b => exact answersLawfully_answer (push85_lawful _ _) rfl
  | r85Flush => exact answersLawfully_answer (flush85_lawful _) rfl
  | r58Push v => exact execR58Push_answersLawfully v s
  | r58Fin => exact execR58Fin_answersLawfully s
  | bchHrph | bchHsep | bchHrpl | bchFin =>
    exact .guardBch _ (answersLawfully_answer Response.ok_lawful rfl)
  | bchSym v => exact execBchSymFor_answersLawfully cfg v s
  | bchCksum k => exact execBchCksumFor_answersLawfully cfg k s
  | bchVerify => exact .guardBch _ (answersLawfully_answer (Response.ok1_lawful _) rfl)
  | mapS2c v => exact execMapS2c_answersLawfully v s
  | mapC2s c => exact execMapC2s_answersLawfully c s

/-- A word that decodes runs its command, any other is refused. -/
theorem runWordFor_eq (cfg : Cfg) (w : CmdWord) :
    (∃ i, ∀ s, runWordFor cfg w s = execFor cfg i s) ∨ ∀ s, runWordFor cfg w s = raise .eIllegal s := by
  unfold runWordFor runWordBy
  cases decode w with
  | ok i => exact .inl ⟨i, fun _ => rfl⟩
  | error _ => exact .inr fun _ => rfl

theorem runWordFor_answersLawfully (cfg : Cfg) (w : CmdWord) (s : State) :
    AnswersLawfully s (runWordFor cfg w s) := by
  obtain ⟨i, hi⟩ | hw := runWordFor_eq cfg w
  · exact hi s ▸ execFor_answersLawfully cfg i s
  · exact hw s ▸ answersLawfully_raise _

/-! ### What a response depends on -/

/-- The two states hold the same registers (rule R13). -/
def State.sameRegisters (s t : State) : Prop := t.r85 = s.r85 ∧ t.r58 = s.r58 ∧ t.bch = s.bch

theorem State.sameRegisters.sameUnit {s t : State} (h : s.sameRegisters t) (u : Target) : sameUnit u s t := by
  obtain ⟨h85, h58, hbch⟩ := h
  cases u with
  | r85 => exact h85.symm
  | r58 => exact h58.symm
  | bch => exact hbch.symm
  | map | sys => trivial

theorem State.sameRegisters.withUnit {s s' : State} (h : s.sameRegisters s') (u : Target) (t : State) :
    (s.withUnit u t).sameRegisters (s'.withUnit u t) := by
  obtain ⟨h85, h58, hbch⟩ := h
  cases u with
  | r85 => exact ⟨rfl, h58, hbch⟩
  | r58 => exact ⟨h85, rfl, hbch⟩
  | bch => exact ⟨h85, h58, rfl⟩
  | map | sys => exact ⟨h85, h58, hbch⟩

/-- The two outcomes answer with the same response and the same registers. -/
def AnswerAlike (s s' : State) (res res' : Result) : Prop :=
  ∃ t t' r, res = .next t ∧ res' = .next t' ∧ t.responses = s.responses ++ [r] ∧
    t'.responses = s'.responses ++ [r] ∧ t.sameRegisters t'

theorem execFor_answerAlike (cfg : Cfg) (i : Instr) {s s' : State} (h : s.sameRegisters s') :
    AnswerAlike s s' (execFor cfg i s) (execFor cfg i s') := by
  by_cases hi : i = .sysRstall
  · subst hi
    exact ⟨_, _, .ok, execFor_sysRstall cfg s, execFor_sysRstall cfg s', rfl, rfl, rfl, rfl, rfl⟩
  · obtain ⟨t, r, ht⟩ := execFor_actsWithin cfg i hi s
    exact ⟨_, _, r, ht s (sameUnit_refl _ s), ht s' (h.sameUnit _), by simp, by simp, h.withUnit _ t⟩

theorem runWordFor_answerAlike (cfg : Cfg) (w : CmdWord) {s s' : State} (h : s.sameRegisters s') :
    AnswerAlike s s' (runWordFor cfg w s) (runWordFor cfg w s') := by
  obtain ⟨i, hi⟩ | hw := runWordFor_eq cfg w
  · rw [hi, hi]
    exact execFor_answerAlike cfg i h
  · rw [hw, hw]
    exact ⟨_, _, .error .eIllegal, rfl, rfl, rfl, rfl, h⟩

theorem Status.code_le (e : Status) : e.code.toNat ≤ 7 := by
  cases e <;> decide

/-- Settles O12: one lawful response for each word, and the same one from states with the same registers. -/
theorem everyWordReturnsOneLawfulResponse : Obligations.EveryWordReturnsOneLawfulResponse := by
  refine ⟨fun cfg w s => ?_, fun cfg w s s' h85 h58 hbch => ?_⟩
  · obtain ⟨t, r, ht, hresp, hr⟩ := runWordFor_answersLawfully cfg w s
    exact ⟨t, r, ht, hresp, hr, r.status.code_le⟩
  · exact runWordFor_answerAlike cfg w ⟨h85, h58, hbch⟩

/-! ### The statuses of a command -/

/-- A check that can fail for a command raises a status of the command's row (rules R93, R97). -/
theorem mem_errors_of_mem_checks {i : Instr} {s : State} {e : Status} (h : (true, e) ∈ i.checks s) :
    e ∈ i.errors := by
  have hphase := mem_all s.bch.phase
  cases i <;>
    simp [Instr.checks, Instr.errors, Instr.target, Instr.inRange, Instr.unknownChar, Instr.phases] at h hphase ⊢ <;>
    tauto

theorem mem_errors_of_firstFailed {i : Instr} {s : State} {e : Status} (h : firstFailed (i.checks s) = some e) :
    e ∈ i.errors := by
  obtain ⟨⟨b, e'⟩, hfind, rfl⟩ := Option.map_eq_some_iff.mp h
  obtain rfl : b = true := List.find?_some hfind
  exact mem_errors_of_mem_checks (List.mem_of_find?_eq_some hfind)

/-- Settles O13: a command that does not answer `OK` reports a check of its own. -/
theorem statusesAreThoseOfTheTable : Obligations.StatusesAreThoseOfTheTable := by
  intro cfg i s
  have hend := execFor_endsAsChecked cfg i s
  generalize execFor cfg i s = res at hend
  cases hend with
  | executes _ hresp hok => exact ⟨_, _, rfl, hresp, .inl hok⟩
  | refuses hf _ => exact ⟨_, _, rfl, rfl, .inr (mem_errors_of_firstFailed hf)⟩
  | halts u hf _ _ => exact ⟨_, _, rfl, by cases u <;> rfl, .inr (mem_errors_of_firstFailed hf)⟩

/-! ### Commands that write nothing, repeated -/

/-- A command that wrote no register returns the same response again, whatever has been returned in between. -/
theorem execFor_repeats {cfg : Cfg} {i : Instr} {s : State} {r : Response}
    (h : execFor cfg i s = .next { s with responses := s.responses ++ [r] }) (q : List Response) :
    execFor cfg i { s with responses := q } = .next { s with responses := q ++ [r] } := by
  obtain ⟨t, t', r', ht, ht', hresp, hresp', h85, h58, hbch⟩ :=
    execFor_answerAlike cfg i (s := s) (s' := { s with responses := q }) ⟨rfl, rfl, rfl⟩
  obtain ⟨u, hu, hin, _⟩ := execFor_writes_own_unit cfg i { s with responses := q }
  cases ht'.symm.trans hu
  cases h.symm.trans ht
  obtain rfl : r = r' := by simpa using hresp
  rw [ht']
  cases t'
  cases h85; cases h58; cases hbch; cases hin; cases hresp'
  rfl

theorem execFor_of_readOnly (cfg : Cfg) {i : Instr} (hi : i.readOnly = true) : execFor cfg i = exec i := by
  cases i <;> cases hi <;> rfl

theorem exec_of_readOnly {i : Instr} (hi : i.readOnly = true) (s : State) :
    ∃ r, exec i s = .next { s with responses := s.responses ++ [r] } := by
  cases i <;> cases hi
  case sysNop | r85St | r58St | bchSt => exact ⟨_, rfl⟩
  case mapS2c v => obtain ⟨_, e⟩ | ⟨_, e⟩ := execMapS2c_cases v s <;> exact ⟨_, e⟩
  case mapC2s c => obtain ⟨_, e⟩ | ⟨_, _, e⟩ := execMapC2s_cases c s <;> exact ⟨_, e⟩

/-- `BCH.CKSUM` and `BCH.VERIFY` write nothing when they succeed (rules R77, R78). -/
theorem execFor_reads_bch {cfg : Cfg} {i : Instr} {s t : State} {r : Response}
    (hi : (∃ k, i = .bchCksum k) ∨ i = .bchVerify) (h : execFor cfg i s = .next t)
    (hresp : t.responses = s.responses ++ [r]) (hok : r.status = .ok) :
    t = { s with responses := s.responses ++ [r] } := by
  have htarget : i.target = .bch := by obtain ⟨_, rfl⟩ | rfl := hi <;> rfl
  obtain ⟨_, _, _, e⟩ | ⟨_, _, e⟩ | ⟨_, _, _, e⟩ | ⟨_, _, _, y, r', _, e, _, _, _, hy⟩ :=
    execFor_bch_cases cfg i s htarget <;> cases h.symm.trans e
  case inr.inr.inr =>
    obtain rfl : r' = r := by simpa using hresp
    rw [hy (hi.imp_right .inl)]
  all_goals
    obtain rfl : r = .error _ := by simpa using hresp.symm
    cases hok

/-- Settles O15: a command that wrote no register finds the registers it had, and a second clear finds them cleared. -/
theorem readsHaveNoSideEffect : Obligations.ReadsHaveNoSideEffect := by
  refine ⟨fun i s hi => ?_, fun cfg i s t r hi h hresp hok => ?_, fun cfg i s t hi h => ?_⟩
  · obtain ⟨r, hr⟩ := exec_of_readOnly hi s
    have hq : ∀ cfg q, execFor cfg i { s with responses := q } = .next { s with responses := q ++ [r] } := fun cfg =>
      execFor_repeats (execFor_of_readOnly cfg hi ▸ hr)
    exact ⟨r, hr, execFor_of_readOnly Config.cfg hi ▸ hq Config.cfg, hq⟩
  · have ht := execFor_reads_bch hi h hresp hok
    exact ⟨ht, execFor_repeats (ht ▸ h)⟩
  · simp only [List.mem_cons, List.not_mem_nil, or_false] at hi
    obtain rfl | rfl | rfl | rfl := hi <;> cases h <;> exact ⟨rfl, rfl⟩

end Sys2Proof.Machine
end

section
/-! SUPPORT. How `BCH.phase` moves (rules R18, R70). -/

namespace Sys2Proof.Machine

/-- Everything a command can do to the phase: keep it, move it as the table of rule R70 says when its checks pass, or
clear it. -/
theorem execFor_phase_cases {cfg : Cfg} {i : Instr} {s t : State} (h : execFor cfg i s = .next t) :
    t.bch.phase = s.bch.phase ∨ (i = .sysRstall ∧ t.bch.phase = .hrpHi) ∨
    (s.bch.phase ∈ i.phases ∧ i.inRange = true ∧ t.bch.phase = i.nextPhase s.bch.phase) := by
  by_cases hr : i = .sysRstall
  · subst hr
    cases h
    exact .inr (.inl ⟨rfl, rfl⟩)
  by_cases hi : i.target = .bch
  · obtain ⟨_, _, _, e⟩ | ⟨_, _, e⟩ | ⟨_, _, _, e⟩ | ⟨_, hrange, hp, y, r, _, e, _, _, hphase, _⟩ :=
      execFor_bch_cases cfg i s hi <;> cases h.symm.trans e
    · exact .inl rfl
    · exact .inl rfl
    · exact .inl rfl
    · exact .inr (.inr ⟨hp, hrange, hphase⟩)
  · obtain ⟨t', e, _, hkeep⟩ := execFor_writes_own_unit cfg i s
    cases h.symm.trans e
    obtain ⟨_, _, hbch⟩ := hkeep hr
    exact .inl (congrArg BchRegs.phase (hbch hi))

/-- The word of `BCH.SYM v`. -/
theorem encode_bchSym (v : Byte) : encode (.bchSym v) = 0x3400 ||| v.setWidth 16 :=
  encode_of_decode (decode_rowMatch_or_operand (i := .bchSym v) rfl)

/-- The arrows of rule R18: the phase changes, and the word of the command that may do it. -/
def phaseArrow (p q : Phase) (x : HostInput) : Prop :=
  (q = .hrpHi ∧ x ∈ [.command 0x3000, .command 0x0100, .hardwareReset]) ∨
  (p = .hrpHi ∧ q = .hrpLo ∧ x = .command 0x3200) ∨
  (p = .hrpLo ∧ q = .data ∧ ∃ v : Byte, v.toNat ≤ 31 ∧ x = .command (0x3400 ||| v.setWidth 16)) ∨
  ((p = .hrpLo ∨ p = .data) ∧ q = .done ∧ x = .command 0x3500)

/-- A command that moves the phase in the table of rule R70 is on one of the arrows. -/
theorem phaseArrow_nextPhase {i : Instr} {p : Phase} (hp : p ∈ i.phases) (hr : i.inRange = true)
    (hne : p ≠ i.nextPhase p) : phaseArrow p (i.nextPhase p) (.command (encode i)) := by
  cases i with
  | bchClr => exact .inl ⟨rfl, by decide⟩
  | bchHsep => exact .inr (.inl ⟨List.mem_singleton.mp hp, rfl, rfl⟩)
  | bchSym v =>
    obtain rfl | rfl := List.mem_pair.mp hp
    · exact .inr (.inr (.inl ⟨rfl, rfl, v, of_decide_eq_true hr, congrArg _ (encode_bchSym v)⟩))
    · exact absurd rfl hne
  | bchFin => exact .inr (.inr (.inr ⟨List.mem_pair.mp hp, rfl, rfl⟩))
  | sysNop | sysRstall | r85Clr | r85Push | r85Flush | r85St | r58Clr | r58Push | r58Fin | r58St
  | bchHrph | bchHrpl | bchCksum | bchVerify | bchSt | mapS2c | mapC2s => exact absurd rfl hne

/-- Settles O34: a step that changes the phase is a reset or runs a command, and the command moves it along an arrow. -/
theorem phaseMovesForwardOrIsCleared : Obligations.PhaseMovesForwardOrIsCleared := by
  intro cfg s t h hne
  change ∃ x rest, s.inputs = x :: rest ∧ phaseArrow s.bch.phase t.bch.phase x
  obtain ⟨_, rfl⟩ | ⟨rest, hin, rfl⟩ | ⟨w, rest, _, _, _, rfl⟩ | ⟨w, rest, i, hin, hw, hrun⟩ := stepBy_cases h
  · exact absurd rfl hne
  · exact ⟨_, rest, hin, .inl ⟨rfl, by simp⟩⟩
  · exact absurd rfl hne
  · rw [← encode_of_decode hw] at hin
    refine ⟨_, rest, hin, ?_⟩
    obtain hkeep | ⟨rfl, hclear⟩ | ⟨hp, hr, hnext⟩ := execFor_phase_cases hrun
    · exact absurd hkeep.symm hne
    · exact .inl ⟨hclear, by decide⟩
    · rw [hnext] at hne ⊢
      exact phaseArrow_nextPhase hp hr hne

end Sys2Proof.Machine
end

section
/-! SUPPORT. The two commands of `MAP` are inverse to each other (rule R87). -/

namespace Sys2Proof.Machine

/-- An operand in range, as a symbol and back. -/
theorem setWidth_five_setWidth {v : Byte} (h : v.toNat ≤ 31) : (v.setWidth 5).setWidth 8 = v :=
  BitVec.eq_of_toNat_eq (by rw [BitVec.toNat_setWidth_of_le (by decide), toNat_setWidth_five h])

/-- `MAP.S2C` succeeds exactly on the symbols, each with its character. -/
theorem exec_mapS2c_eq_ok1_iff (v c : Byte) (s : State) :
    exec (.mapS2c v) s = .next { s with responses := s.responses ++ [⟨.ok, 1, c, 0⟩] } ↔
      ∃ x : Sym, v = x.setWidth 8 ∧ c = charOf x := by
  rw [exec_mapS2c]
  constructor
  · intro h
    obtain ⟨_, e⟩ | ⟨hv, e⟩ := execMapS2c_cases v s
    · simpa using h.symm.trans e
    · refine ⟨v.setWidth 5, (setWidth_five_setWidth hv).symm, ?_⟩
      simpa [Response.ok1] using h.symm.trans e
  · rintro ⟨x, rfl, rfl⟩
    rw [execMapS2c, symbol?_setWidth]
    rfl

/-- The characters are the values on which the inverse table is defined. -/
theorem charsetInv_eq_some_iff (c : Byte) (x : Sym) : charsetInv c = some x ↔ c = charOf x := by
  constructor
  · intro h
    have hmem : c ∈ charset := by
      by_contra hc
      cases h.symm.trans (charsetInv_eq_none hc)
    obtain ⟨k, hk⟩ := List.mem_iff_getElem?.mp hmem
    obtain ⟨_, rfl⟩ := charset_getElem?_eq_some hk
    rw [charsetInv_charOf] at h
    rw [Option.some.inj h]
  · rintro rfl
    exact charsetInv_charOf x

/-- `MAP.C2S` succeeds exactly on the characters, each with its symbol. -/
theorem exec_mapC2s_eq_ok1_iff (c v : Byte) (s : State) :
    exec (.mapC2s c) s = .next { s with responses := s.responses ++ [⟨.ok, 1, v, 0⟩] } ↔
      ∃ x : Sym, v = x.setWidth 8 ∧ c = charOf x := by
  rw [exec_mapC2s]
  constructor
  · intro h
    obtain ⟨_, e⟩ | ⟨x, hx, e⟩ := execMapC2s_cases c s
    · simpa using h.symm.trans e
    · refine ⟨x, ?_, (charsetInv_eq_some_iff c x).mp hx⟩
      simpa [Response.ok1] using h.symm.trans e
  · rintro ⟨x, rfl, rfl⟩
    rw [execMapC2s_of_charsetInv (charsetInv_charOf x)]
    rfl

/-- The 32 symbols. -/
def allSymbols : List Sym := (List.finRange 32).map .ofFin

theorem mem_allSymbols (x : Sym) : x ∈ allSymbols := List.mem_map.mpr ⟨x.toFin, List.mem_finRange _, rfl⟩

theorem nodup_allSymbols : allSymbols.Nodup :=
  (List.nodup_finRange 32).map fun _ _ h => BitVec.ofFin.inj h

/-- The images of the 32 symbols under an injective function are 32 values. -/
theorem image_allSymbols {f : Sym → Byte} (hf : Function.Injective f) :
    (allSymbols.map f).Nodup ∧ (allSymbols.map f).length = 32 ∧ ∀ c, c ∈ allSymbols.map f ↔ ∃ x, c = f x := by
  refine ⟨nodup_allSymbols.map hf, rfl, fun c => ?_⟩
  simp [mem_allSymbols, eq_comm]

theorem setWidth_eight_injective : Function.Injective (fun x : Sym => x.setWidth 8) := fun x y h =>
  Option.some.inj <| by rw [← symbol?_setWidth x, ← symbol?_setWidth y]; exact congrArg symbol? h

/-- Settles O47: both commands succeed on the same 32 pairs of a symbol and its character. -/
theorem mapIsABijection : Obligations.MapIsABijection := by
  intro s
  simp only [exec_mapS2c_eq_ok1_iff, exec_mapC2s_eq_ok1_iff]
  refine ⟨fun v hv => ?_, fun c v h => h, ?_, ?_⟩
  · have hx := (setWidth_five_setWidth hv).symm
    exact ⟨_, ⟨_, hx, rfl⟩, ⟨_, hx, rfl⟩⟩
  · obtain ⟨hnodup, hlen, hmem⟩ := image_allSymbols charOf_injective
    exact ⟨_, hnodup, hlen, fun c => by simp [hmem]⟩
  · obtain ⟨hnodup, hlen, hmem⟩ := image_allSymbols setWidth_eight_injective
    exact ⟨_, hnodup, hlen, fun v => by simp [hmem]⟩

end Sys2Proof.Machine
end

section
/-! SUPPORT. Commands of different units do not see each other: they commute, and a unit's commands do in any sequence
what they do alone (rules R37, R103). -/

namespace Sys2Proof.Machine

/-! ### Two units -/

theorem sameUnit.symm {u : Target} {s t : State} (h : sameUnit u s t) : sameUnit u t s := by
  cases u with
  | r85 | r58 | bch => exact Eq.symm h
  | map | sys => trivial

theorem sameUnit.trans {u : Target} {s t x : State} (h : sameUnit u s t) (h' : sameUnit u t x) : sameUnit u s x := by
  cases u with
  | r85 | r58 | bch => exact Eq.trans h h'
  | map | sys => trivial

/-- A response is no register. -/
theorem sameUnit_respond (u : Target) (r : Response) (s : State) : sameUnit u s (s.respond r) := by
  cases u with
  | r85 | r58 | bch => rfl
  | map | sys => trivial

/-- Two units that share no register: they are different, or they have none. -/
def UnitsApart (u v : Target) : Prop := u ≠ v ∨ u = .map ∨ u = .sys

theorem sameUnit_withUnit_of_unitsApart {u v : Target} (h : UnitsApart u v) (s x : State) :
    sameUnit u s (s.withUnit v x) ∧ sameUnit v s (s.withUnit u x) := by
  obtain hne | rfl | rfl := h
  · exact ⟨sameUnit_withUnit hne s x, sameUnit_withUnit hne.symm s x⟩
  · exact ⟨trivial, sameUnit_refl v s⟩
  · exact ⟨trivial, sameUnit_refl v s⟩

theorem State.withUnit_comm_of_unitsApart {u v : Target} (h : UnitsApart u v) (s x y : State) :
    (s.withUnit v y).withUnit u x = (s.withUnit u x).withUnit v y := by
  obtain hne | rfl | rfl := h
  · exact State.withUnit_comm hne s x y
  · rfl
  · rfl

/-! ### Two commands -/

theorem execAll_cons_of_next {cfg : Cfg} {i : Instr} {is : List Instr} {s t : State} (h : execFor cfg i s = .next t) :
    execAll cfg (i :: is) s = execAll cfg is t := by
  rw [execAll, h]

/-- One command after another of a unit apart: each does what it does at `s`. -/
theorem execAll_pair {cfg : Cfg} {a b : Instr} {s ta tb : State} {ra rb : Response}
    (ha : ∀ x, sameUnit a.target s x → execFor cfg a x = .next ((x.withUnit a.target ta).respond ra))
    (hb : ∀ x, sameUnit b.target s x → execFor cfg b x = .next ((x.withUnit b.target tb).respond rb))
    (hab : sameUnit b.target s (s.withUnit a.target ta)) :
    execAll cfg [a, b] s =
      .next ((((s.withUnit a.target ta).respond ra).withUnit b.target tb).respond rb) := by
  rw [execAll_cons_of_next (ha s (sameUnit_refl _ s)),
    execAll_cons_of_next (hb _ (hab.trans (sameUnit_respond _ _ _))), execAll]

/-- Settles O55: each command does at the other's outcome what it does at `s`, and their writes commute. -/
theorem commandsOfDifferentUnitsCommute : Obligations.CommandsOfDifferentUnitsCommute := by
  intro cfg a b s ha hb hunits
  have hapart : UnitsApart a.target b.target := hunits.imp_right (Or.imp_right (congrArg Instr.target))
  obtain ⟨ta, ra, hta⟩ := execFor_actsWithin cfg a ha s
  obtain ⟨tb, rb, htb⟩ := execFor_actsWithin cfg b hb s
  refine ⟨_, _, ra, rb, execAll_pair hta htb (sameUnit_withUnit_of_unitsApart hapart s ta).2,
    execAll_pair htb hta (sameUnit_withUnit_of_unitsApart hapart s tb).1, by simp, by simp, ?_⟩
  rw [← State.respond_withUnit, ← State.respond_withUnit, State.withUnit_comm_of_unitsApart hapart]
  simp [State.respond]

/-! ### A sequence of commands -/

/-- A command of another unit leaves `u` alone and returns one response. -/
theorem execFor_apart (cfg : Cfg) {u : Target} {i : Instr} (hr : i ≠ .sysRstall) (hi : i.target ≠ u) (s : State) :
    ∃ t r, execFor cfg i s = .next t ∧ t.responses = s.responses ++ [r] ∧ sameUnit u s t := by
  obtain ⟨t, r, ht⟩ := execFor_actsWithin cfg i hr s
  exact ⟨_, r, ht s (sameUnit_refl _ s), by simp,
    (sameUnit_withUnit hi.symm s t).trans (sameUnit_respond u r _)⟩

/-- The commands of `u` among `is` do from `s'` what they do within `is` from `s`, when `s` and `s'` agree on `u`. -/
theorem execAll_filter (cfg : Cfg) (u : Target) (is : List Instr) (hr : .sysRstall ∉ is) {s s' : State}
    (hs : sameUnit u s s') : ∃ (t t' : State) (rs : List Response),
      execAll cfg is s = .next t ∧ execAll cfg (is.filter (fun i => i.target = u)) s' = .next t' ∧
      t.responses = s.responses ++ rs ∧ rs.length = is.length ∧
      t'.responses = s'.responses ++ ((is.zip rs).filter (fun p => p.1.target = u)).map (fun p => p.2) ∧
      sameUnit u t t' := by
  induction is generalizing s s' with
  | nil => exact ⟨s, s', [], rfl, rfl, by simp, rfl, by simp, hs⟩
  | cons i is ih =>
    have hi : i ≠ .sysRstall := fun h => hr (h ▸ List.mem_cons_self)
    have his : .sysRstall ∉ is := fun h => hr (List.mem_cons_of_mem i h)
    by_cases hu : i.target = u
    · subst hu
      obtain ⟨x, x', r, hx, hx', hresp, hresp', hsame⟩ := execFor_reads_own_unit cfg i hs
      obtain ⟨t, t', rs, ht, ht', hrs, hlen, hrs', hsame'⟩ := ih his hsame
      refine ⟨t, t', r :: rs, (execAll_cons_of_next hx).trans ht, ?_, ?_, ?_, ?_, hsame'⟩
      · rw [List.filter_cons_of_pos (by simp)]
        exact (execAll_cons_of_next hx').trans ht'
      · simp [hrs, hresp]
      · simp [hlen]
      · simp [hrs', hresp']
    · obtain ⟨x, r, hx, hresp, hsame⟩ := execFor_apart cfg hi hu s
      obtain ⟨t, t', rs, ht, ht', hrs, hlen, hrs', hsame'⟩ := ih his (hsame.symm.trans hs)
      refine ⟨t, t', r :: rs, (execAll_cons_of_next hx).trans ht, ?_, ?_, ?_, ?_, hsame'⟩
      · rw [List.filter_cons_of_neg (by simp [hu])]
        exact ht'
      · simp [hrs, hresp]
      · simp [hlen]
      · simp [hrs', hu]

/-- Settles O56: the sequence and the unit's own commands start from the same state. -/
theorem otherUnitsMayBeInterleaved : Obligations.OtherUnitsMayBeInterleaved :=
  fun cfg u is s hr => execAll_filter cfg u is hr (sameUnit_refl u s)

end Sys2Proof.Machine
end


section
/-! SUPPORT. Bit strings, most significant bit first (rules R26, R52): their values, how they split, and what
`ConvertBits` makes of them. -/

namespace Sys2Proof.Machine

/-! ### The bits of a value -/

@[simp] theorem length_bitsMsb (k v : Nat) : (bitsMsb k v).length = k := by
  simp [bitsMsb]

@[simp] theorem bitsMsb_zero (v : Nat) : bitsMsb 0 v = [] := rfl

/-- The lowest bit stands last. -/
theorem bitsMsb_succ (k v : Nat) : bitsMsb (k + 1) v = bitsMsb k (v / 2) ++ [v.testBit 0] := by
  simp [bitsMsb, List.range_succ_eq_map, Function.comp_def, Nat.testBit_succ, ← List.map_reverse]

/-- The low `b` bits stand after the others. -/
theorem bitsMsb_add (a b v : Nat) : bitsMsb (a + b) v = bitsMsb a (v / 2 ^ b) ++ bitsMsb b v := by
  induction b generalizing v with
  | zero => simp
  | succ b ih =>
    rw [← Nat.add_assoc, bitsMsb_succ, ih, bitsMsb_succ b, List.append_assoc, Nat.div_div_eq_div_mul, Nat.pow_succ']

/-- Only the low `k` bits count. -/
theorem bitsMsb_mod (k v : Nat) : bitsMsb k (v % 2 ^ k) = bitsMsb k v := by
  unfold bitsMsb
  refine List.map_congr_left fun i hi => ?_
  have hi : i < k := by simpa using hi
  simp [Nat.testBit_mod_two_pow, hi]

/-- Two values side by side. -/
theorem bitsMsb_append (a b x y : Nat) (hy : y < 2 ^ b) :
    bitsMsb a x ++ bitsMsb b y = bitsMsb (a + b) (x * 2 ^ b + y) := by
  rw [bitsMsb_add, Nat.mul_comm, Nat.mul_add_div (Nat.two_pow_pos b), Nat.div_eq_of_lt hy, Nat.add_zero,
    ← bitsMsb_mod b (2 ^ b * x + y), Nat.mul_add_mod, bitsMsb_mod]

/-! ### The value of a bit string -/

theorem number_append_singleton (l : List Bool) (b : Bool) : number (l ++ [b]) = 2 * number l + b.toNat := by
  simp [number]

theorem number_bitsMsb (k v : Nat) : number (bitsMsb k v) = v % 2 ^ k := by
  induction k generalizing v with
  | zero => simp [number, Nat.mod_one]
  | succ k ih =>
    rw [bitsMsb_succ, number_append_singleton, ih, Nat.pow_succ', Nat.mod_mul, Nat.testBit_zero]
    have hb : (decide (v % 2 = 1)).toNat = v % 2 := by
      rcases Nat.mod_two_eq_zero_or_one v with h | h <;> simp [h]
    omega

/-! ### Groups -/

/-- The bits of a list of values, `k` bits each. -/
def joinBits (k : Nat) (vals : List Nat) : List Bool := vals.flatMap (bitsMsb k)

@[simp] theorem joinBits_nil (k : Nat) : joinBits k [] = [] := rfl

@[simp] theorem joinBits_cons (k v : Nat) (vals : List Nat) : joinBits k (v :: vals) = bitsMsb k v ++ joinBits k vals :=
  rfl

@[simp] theorem joinBits_append (k : Nat) (xs ys : List Nat) : joinBits k (xs ++ ys) = joinBits k xs ++ joinBits k ys :=
  List.flatMap_append

@[simp] theorem length_joinBits (k : Nat) (vals : List Nat) : (joinBits k vals).length = vals.length * k := by
  induction vals with
  | nil => simp
  | cons v vals ih => simp [ih, Nat.add_mul, Nat.add_comm]

theorem groups_succ (k q : Nat) (S : List Bool) : groups k (q + 1) S = number (S.take k) :: groups k q (S.drop k) := by
  simp [groups, List.range_succ_eq_map, Function.comp_def, Nat.add_mul, Nat.add_comm]

/-- The groups of a joined string are the values joined, whatever follows them. -/
theorem groups_joinBits {k : Nat} {vals : List Nat} (h : ∀ v ∈ vals, v < 2 ^ k) (tail : List Bool) :
    groups k vals.length (joinBits k vals ++ tail) = vals := by
  induction vals with
  | nil => rfl
  | cons v vals ih =>
    obtain ⟨hv, hvals⟩ := List.forall_mem_cons.mp h
    rw [List.length_cons, groups_succ, joinBits_cons, List.append_assoc]
    rw [List.take_left' (length_bitsMsb k v), List.drop_left' (length_bitsMsb k v), ih hvals, number_bitsMsb,
      Nat.mod_eq_of_lt hv]

/-! ### `ConvertBits` -/

/-- What is left of a bit string after the groups taken from it decides the end of `ConvertBits` (rule R52). -/
def convertTail (src dst : Nat) (pad : Bool) (out : List Nat) (tail : List Bool) : Option (List Nat) :=
  if pad then if tail.length > 0 then some (out ++ [number tail <<< (dst - tail.length)]) else some out
  else if number tail ≠ 0 then none
  else if tail.length ≥ src then none
  else some out

section
variable {input out : List Nat} {src dst : Nat} {tail : List Bool}
  (hbits : joinBits src input = joinBits dst out ++ tail)
include hbits

/-- How many groups of `dst` bits the input has. -/
theorem length_div_of_joinBits (htail : tail.length < dst) : src * input.length / dst = out.length := by
  have hlen := congrArg List.length hbits
  simp only [List.length_append, length_joinBits] at hlen
  rw [Nat.mul_comm, hlen, Nat.add_comm, Nat.add_mul_div_right _ _ (by omega), Nat.div_eq_of_lt htail, Nat.zero_add]

/-- `ConvertBits` of values in range, whose bits are those of `out` followed by less than one more group. -/
theorem convertBits_of_joinBits (hin : ∀ v ∈ input, v < 2 ^ src) (hout : ∀ v ∈ out, v < 2 ^ dst)
    (htail : tail.length < dst) (pad : Bool) : convertBits input src dst pad = convertTail src dst pad out tail := by
  have hrange : ¬ (input.any fun v => v > 2 ^ src - 1) = true := by
    simp only [List.any_eq_true, not_exists, not_and, decide_eq_true_eq]
    intro v hv
    have := hin v hv
    omega
  have hlen : (joinBits dst out ++ tail).length = tail.length + out.length * dst := by simp [Nat.add_comm]
  have hq : (joinBits dst out ++ tail).length / dst = out.length := by
    rw [hlen, Nat.add_mul_div_right _ _ (by omega), Nat.div_eq_of_lt htail, Nat.zero_add]
  have hr : (joinBits dst out ++ tail).length % dst = tail.length := by
    rw [hlen, Nat.add_mul_mod_self_right, Nat.mod_eq_of_lt htail]
  have hdrop : (joinBits dst out ++ tail).drop (out.length * dst) = tail := by
    rw [List.drop_left' (length_joinBits dst out)]
  have hS : input.flatMap (bitsMsb src) = joinBits dst out ++ tail := hbits
  unfold convertBits convertTail
  rw [if_neg hrange]
  simp only [hS, hq, hr, hdrop, groups_joinBits hout]

end

/-- An operand out of range makes `ConvertBits` fail. -/
theorem convertBits_eq_none_of_mem {input : List Nat} {src : Nat} {v : Nat} (hv : v ∈ input) (hgt : 2 ^ src - 1 < v)
    (dst : Nat) (pad : Bool) : convertBits input src dst pad = none :=
  if_pos (List.any_eq_true.mpr ⟨v, hv, decide_eq_true hgt⟩)

end Sys2Proof.Machine
end

section
/-! SUPPORT. Sequences of commands: their responses one by one, their run through the step, and what they leave
unchanged (rules R36, R103). -/

namespace Sys2Proof.Machine

/-- The commands `is`, run one after the other from `s`, end in `t` and return `rs`, one response each. -/
inductive Returns (cfg : Cfg) : List Instr → State → State → List Response → Prop where
  | nil (s : State) : Returns cfg [] s s []
  | cons {i : Instr} {is : List Instr} {s t u : State} {r : Response} {rs : List Response}
      (h : execFor cfg i s = .next t) (hr : t.responses = s.responses ++ [r]) (hs : Returns cfg is t u rs) :
      Returns cfg (i :: is) s u (r :: rs)

section
variable {cfg : Cfg} {i : Instr} {is js : List Instr} {s t u : State} {r : Response} {rs qs : List Response}

theorem Returns.single (h : execFor cfg i s = .next t) (hr : t.responses = s.responses ++ [r]) :
    Returns cfg [i] s t [r] :=
  .cons h hr (.nil t)

theorem Returns.append (h : Returns cfg is s t rs) (h' : Returns cfg js t u qs) :
    Returns cfg (is ++ js) s u (rs ++ qs) := by
  induction h with
  | nil => exact h'
  | cons hi hr _ ih => exact .cons hi hr (ih h')

theorem Returns.length_eq (h : Returns cfg is s t rs) : rs.length = is.length := by
  induction h with
  | nil => rfl
  | cons _ _ _ ih => rw [List.length_cons, List.length_cons, ih]

theorem Returns.responses_eq (h : Returns cfg is s t rs) : t.responses = s.responses ++ rs := by
  induction h with
  | nil => simp
  | cons _ hr _ ih => rw [ih, hr, List.append_assoc, List.singleton_append]

/-- The machine is deterministic. -/
theorem Returns.unique (h : Returns cfg is s t rs) (h' : Returns cfg is s u qs) : t = u ∧ rs = qs := by
  induction h generalizing u qs with
  | nil => cases h'; exact ⟨rfl, rfl⟩
  | cons hi hr _ ih =>
    cases h' with
    | cons hi' hr' hs' =>
      cases hi.symm.trans hi'
      obtain ⟨rfl, rfl⟩ := ih hs'
      obtain rfl := List.singleton_inj.mp (List.append_cancel_left (hr.symm.trans hr'))
      exact ⟨rfl, rfl⟩

/-- Every sequence of commands runs to its end. -/
theorem returns_exists (cfg : Cfg) (is : List Instr) (s : State) : ∃ t rs, Returns cfg is s t rs := by
  induction is generalizing s with
  | nil => exact ⟨s, [], .nil s⟩
  | cons i is ih =>
    obtain ⟨t, r, ht, hr, _⟩ := execFor_answersLawfully cfg i s
    obtain ⟨u, rs, hu⟩ := ih t
    exact ⟨u, r :: rs, .cons ht hr hu⟩

/-! ### Through the step -/

/-- What the host has supplied changes nothing in what a command does (rule R36). -/
theorem execFor_supply (h : execFor cfg i s = .next t) (js : List Instr) :
    execFor cfg i (s.supply js) = .next (t.supply js) := by
  by_cases hi : i = .sysRstall
  · subst hi
    cases h
    rfl
  · obtain ⟨x, r, hx⟩ := execFor_actsWithin cfg i hi s
    cases h.symm.trans (hx s (sameUnit_refl _ s))
    have hsame : sameUnit i.target s (s.supply js) := State.sameRegisters.sameUnit ⟨rfl, rfl, rfl⟩ _
    rw [hx _ hsame]
    cases i.target <;> rfl

theorem run_succ_of_step (h : stepFor cfg s = .next t) (n : Nat) :
    (coreFor cfg).run (n + 1) s = (coreFor cfg).run n t := by
  have hstep : (coreFor cfg).step s = .next t := h
  simp only [Host.Core.run, hstep]

/-- The commands supplied at `s` and stepped through end as they do one after the other. -/
theorem Returns.run_supply (h : Returns cfg is s t rs) :
    (coreFor cfg).run is.length (s.supply is) = .next t := by
  induction h with
  | nil => rfl
  | @cons i is s t u r rs hi _ _ ih =>
    have hstep : stepFor cfg (s.supply (i :: is)) = .next (t.supply is) :=
      (stepBy_command cfg _ (rest := (s.supply is).inputs) rfl (decodeInvertsEncode i)).trans (execFor_supply hi is)
    exact (run_succ_of_step hstep is.length).trans ih

/-! ### What a call leaves unchanged -/

/-- Commands of one unit write the registers of that unit and nothing else but their responses. -/
theorem Returns.frame {v : Target} (h : Returns cfg is s t rs) (hv : ∀ i ∈ is, i.target = v) (hsys : v ≠ .sys) :
    t = { s.withUnit v t with responses := s.responses ++ rs } := by
  induction h with
  | nil s => rw [State.withUnit_of_sameUnit (sameUnit_refl v s)]; simp
  | @cons i is s t u r rs hi hr hs ih =>
    obtain ⟨rfl, his⟩ := List.forall_mem_cons.mp hv
    have hrstall : i ≠ .sysRstall := by rintro rfl; exact hsys rfl
    obtain ⟨x, q, hx⟩ := execFor_actsWithin cfg i hrstall s
    cases hi.symm.trans (hx s (sameUnit_refl _ s))
    obtain rfl : q = r := by simpa using hr
    have hu := ih his
    generalize i.target = v at hu
    rw [hu]
    cases v <;> simp [State.withUnit, State.respond]

/-- Commands of one unit that put its registers back have changed nothing but the responses. -/
theorem Returns.eq_of_sameUnit {v : Target} (h : Returns cfg is s t rs) (hv : ∀ i ∈ is, i.target = v)
    (hsys : v ≠ .sys) (hsame : sameUnit v t s) : t = { s with responses := s.responses ++ rs } := by
  rw [h.frame hv hsys, State.withUnit_of_sameUnit hsame]

end

/-! ### Responses without data -/

@[simp] theorem outputsOf_nil : outputsOf [] = [] := rfl

@[simp] theorem outputsOf_append (rs qs : List Response) : outputsOf (rs ++ qs) = outputsOf rs ++ outputsOf qs :=
  List.flatMap_append

@[simp] theorem outputsOf_cons (r : Response) (rs : List Response) : outputsOf (r :: rs) = r.outputs ++ outputsOf rs :=
  rfl

@[simp] theorem Response.outputs_ok : Response.ok.outputs = [] := rfl

@[simp] theorem Response.outputs_ok1 (a : Byte) : (Response.ok1 a).outputs = [a.toNat] := rfl

@[simp] theorem Response.outputs_ok2 (a b : Byte) : (Response.ok2 a b).outputs = [a.toNat, b.toNat] := rfl

@[simp] theorem Response.outputs_error (e : Status) : (Response.error e).outputs = [] := rfl

theorem outputsOf_replicate {r : Response} (h : r.outputs = []) (n : Nat) : outputsOf (List.replicate n r) = [] := by
  simp [outputsOf, h]

/-- Every response is `OK`. -/
def AllOk (rs : List Response) : Prop := ∀ r ∈ rs, r.status = .ok

theorem allOk_nil : AllOk [] := nofun

theorem allOk_cons {r : Response} {rs : List Response} (hr : r.status = .ok) (h : AllOk rs) : AllOk (r :: rs) :=
  List.forall_mem_cons.mpr ⟨hr, h⟩

theorem AllOk.append {rs qs : List Response} (h : AllOk rs) (h' : AllOk qs) : AllOk (rs ++ qs) :=
  List.forall_mem_append.mpr ⟨h, h'⟩

theorem allOk_replicate (n : Nat) : AllOk (List.replicate n .ok) := fun _ h => (List.eq_of_mem_replicate h) ▸ rfl

theorem AllOk.map_status {rs : List Response} (h : AllOk rs) : rs.map Response.status = List.replicate rs.length .ok :=
  List.map_eq_replicate_iff.mpr h

/-- The optional `CLR` of a call: the unit is cleared after it, or was so before (rule R103). -/
theorem returns_clrIf {cfg : Cfg} {clr : Bool} {i : Instr} {s t : State} {Cleared : State → Prop}
    (h : clr = true ∨ Cleared s) (hi : execFor cfg i s = .next t) (hr : t.responses = s.responses ++ [.ok])
    (ht : Cleared t) :
    ∃ t', Returns cfg (clrIf clr i) s t' (List.replicate (clrIf clr i).length .ok) ∧ Cleared t' := by
  cases clr with
  | true => exact ⟨t, .single hi hr, ht⟩
  | false => exact ⟨s, .nil s, by simpa using h⟩

end Sys2Proof.Machine
end

section
/-! SUPPORT. The regroupers keep the bit string, and their calls are `ConvertBits` (rules R26, R59, R60, R65, R66). -/

namespace Sys2Proof.Machine

/-! ### Regrouping -/

/-- Regrouping `vals`, `src` bits each, with the bits `before` in front of them into `outs`, `dst` bits each, with the
bits `after` left over loses no bit and invents none. -/
def Conserves (src dst : Nat) (before : List Bool) (vals outs : List Nat) (after : List Bool) : Prop :=
  (∀ v ∈ outs, v < 2 ^ dst) ∧ joinBits dst outs ++ after = before ++ joinBits src vals

theorem conserves_nil (src dst : Nat) (left : List Bool) : Conserves src dst left [] [] left :=
  ⟨nofun, by simp⟩

theorem Conserves.append {src dst : Nat} {left mid right : List Bool} {vals vals' outs outs' : List Nat}
    (h : Conserves src dst left vals outs mid) (h' : Conserves src dst mid vals' outs' right) :
    Conserves src dst left (vals ++ vals') (outs ++ outs') right := by
  obtain ⟨hlt, hbits⟩ := h
  obtain ⟨hlt', hbits'⟩ := h'
  refine ⟨List.forall_mem_append.mpr ⟨hlt, hlt'⟩, ?_⟩
  rw [joinBits_append, joinBits_append, List.append_assoc, hbits', ← List.append_assoc, hbits, List.append_assoc]

/-- A sequence of pushes, each of which keeps `Ready` and the bit string. -/
theorem returns_pushes {cfg : Cfg} {src dst : Nat} {push : Byte → Instr} {Ready : State → Prop}
    {left : State → List Bool} {vals : List Byte} {s : State} (hs : Ready s)
    (hpush : ∀ v ∈ vals, ∀ s, Ready s → ∃ t r, execFor cfg (push v) s = .next t ∧
      t.responses = s.responses ++ [r] ∧ r.status = .ok ∧ Ready t ∧
      Conserves src dst (left s) [v.toNat] r.outputs (left t)) :
    ∃ t rs, Returns cfg (vals.map push) s t rs ∧ AllOk rs ∧ Ready t ∧
      Conserves src dst (left s) (vals.map BitVec.toNat) (outputsOf rs) (left t) := by
  induction vals generalizing s with
  | nil => exact ⟨s, [], .nil s, allOk_nil, hs, conserves_nil src dst _⟩
  | cons v vals ih =>
    obtain ⟨hv, hvals⟩ := List.forall_mem_cons.mp hpush
    obtain ⟨t, r, ht, hr, hok, hready, hc⟩ := hv s hs
    obtain ⟨u, rs, hu, hoks, hready', hc'⟩ := ih hready hvals
    exact ⟨u, r :: rs, .cons ht hr hu, allOk_cons hok hoks, hready', hc.append hc'⟩

/-! ### Bits that are stored and returned -/

/-- The low `k` bits of a value, stored in a register of at least that width, are those bits. -/
theorem toNat_ofNat_mod (t : Nat) {k w : Nat} (h : k ≤ w) : (BitVec.ofNat w (t % 2 ^ k)).toNat = t % 2 ^ k :=
  Nat.mod_eq_of_lt ((Nat.mod_lt t (Nat.two_pow_pos k)).trans_le (Nat.pow_le_pow_right (by decide) h))

theorem bitsMsb_ofNat_mod (t : Nat) {k w : Nat} (h : k ≤ w) :
    bitsMsb k (BitVec.ofNat w (t % 2 ^ k)).toNat = bitsMsb k t := by
  rw [toNat_ofNat_mod t h, bitsMsb_mod]

/-! ### `R85`: the push -/

/-- The leftover of `R85` as a bit string. -/
def R85Regs.leftover (r : R85Regs) : List Bool := bitsMsb r.bits.toNat r.rem.toNat

theorem R85Regs.leftover_append_byte (r : R85Regs) (b : Byte) :
    r.leftover ++ bitsMsb 8 b.toNat = bitsMsb (r.bits.toNat + 8) (r.rem.toNat * 256 + b.toNat) :=
  bitsMsb_append _ 8 _ b.toNat b.isLt

/-- The leftover that a push stores: the low `m` bits of a value. -/
theorem R85Regs.leftover_ofNat (t : Nat) {m : Nat} (hm : m ≤ 4) :
    R85Regs.leftover ⟨.ofNat 4 (t % 2 ^ m), .ofNat 3 m⟩ = bitsMsb m t := by
  have hm' : (BitVec.ofNat 3 m).toNat = m := Nat.mod_eq_of_lt (by omega)
  rw [R85Regs.leftover, hm', bitsMsb_ofNat_mod t hm]

theorem push85_conserves {r : R85Regs} (h : r.legal) (b : Byte) :
    Conserves 8 5 r.leftover [b.toNat] (push85 r b).2.outputs (push85 r b).1.leftover := by
  obtain ⟨hbits, _⟩ := h
  have hlt : ∀ t, (BitVec.ofNat 8 (t % 32)).toNat < 32 := fun t => toNat_lowBits_lt 8 t 5
  have hsym : ∀ t, bitsMsb 5 (BitVec.ofNat 8 (t % 32)).toNat = bitsMsb 5 t := fun t =>
    bitsMsb_ofNat_mod t (k := 5) (by decide)
  rw [Conserves, joinBits_cons, joinBits_nil, List.append_nil, R85Regs.leftover_append_byte]
  by_cases hn : 10 ≤ r.bits.toNat + 8
  · obtain ⟨m, hm⟩ : ∃ m, r.bits.toNat + 8 = 5 + (5 + m) := ⟨r.bits.toNat - 2, by omega⟩
    rw [push85_two b hn, hm, bitsMsb_add 5, bitsMsb_add 5]
    simp only [Nat.add_sub_cancel_left, show 5 + (5 + m) - 10 = m by omega]
    exact ⟨by simp [-BitVec.toNat_ofNat, hlt],
      by simp [-BitVec.toNat_ofNat, hsym, R85Regs.leftover_ofNat _ (show m ≤ 4 by omega)]⟩
  · obtain ⟨m, hm⟩ : ∃ m, r.bits.toNat + 8 = 5 + m := ⟨r.bits.toNat + 3, by omega⟩
    rw [push85_one b (Nat.lt_of_not_le hn), hm, bitsMsb_add 5]
    simp only [Nat.add_sub_cancel_left]
    exact ⟨by simp [-BitVec.toNat_ofNat, hlt],
      by simp [-BitVec.toNat_ofNat, hsym, R85Regs.leftover_ofNat _ (show m ≤ 4 by omega)]⟩

/-- Settles O24: the value the push works on is the old leftover and the byte side by side, cut into groups of five. -/
theorem r85PushConservesTheBitString : Obligations.R85PushConservesTheBitString := by
  intro b s hs
  obtain ⟨_, hbits⟩ := push85_conserves hs b
  rw [joinBits_cons, joinBits_nil, List.append_nil] at hbits
  exact ⟨_, _, exec_r85Push b s, rfl, hbits⟩

/-! ### `R85`: the call -/

@[simp] theorem R85Regs.length_leftover (r : R85Regs) : r.leftover.length = r.bits.toNat := length_bitsMsb _ _

theorem R85Regs.number_leftover {r : R85Regs} (h : r.legal) : number r.leftover = r.rem.toNat := by
  rw [R85Regs.leftover, number_bitsMsb, Nat.mod_eq_of_lt h.2]

theorem bitsMsb_of_zero (k : Nat) : bitsMsb k 0 = List.replicate k false := by
  simp [bitsMsb]

/-- What the flush returns is the padded end of `ConvertBits`: the leftover with fewer than five zeros behind it. -/
theorem flush85_pads {r : R85Regs} (h : r.legal) :
    (∀ x ∈ (flush85 r).outputs, x < 2 ^ 5) ∧
    (∀ outs, convertTail 8 5 true outs r.leftover = some (outs ++ (flush85 r).outputs)) ∧
    ∃ p < 5, joinBits 5 (flush85 r).outputs = r.leftover ++ List.replicate p false := by
  by_cases hb : 0 < r.bits.toNat
  · have hlt : r.rem.toNat * 2 ^ (5 - r.bits.toNat) < 32 := R85Regs.legal.justified_lt h
    have hout : (flush85 r).outputs = [r.rem.toNat * 2 ^ (5 - r.bits.toNat)] := by
      rw [flush85_of_pos h hb, Response.outputs_ok1, BitVec.toNat_ofNat, Nat.mod_eq_of_lt (hlt.trans (by decide))]
    rw [hout]
    refine ⟨by simpa using hlt, fun outs => ?_, 5 - r.bits.toNat, by omega, ?_⟩
    · simp [convertTail, hb, R85Regs.number_leftover h, Nat.shiftLeft_eq]
    · rw [← bitsMsb_of_zero, R85Regs.leftover, bitsMsb_append _ _ _ 0 (Nat.two_pow_pos _), joinBits_cons, joinBits_nil,
        List.append_nil, Nat.add_zero, Nat.add_sub_cancel' (h.1.trans (by decide))]
  · have hb : r.bits.toNat = 0 := by omega
    have hleft : r.leftover = [] := by rw [R85Regs.leftover, hb, bitsMsb_zero]
    rw [flush85_of_empty (BitVec.eq_of_toNat_eq hb), hleft]
    exact ⟨nofun, fun outs => by simp [convertTail], 0, by decide, rfl⟩

/-- R59: a `R85` call that starts in the cleared state answers `OK` throughout, returns `ConvertBits` and leaves the
unit cleared; its symbols spell the bytes with fewer than five zeros behind them. -/
theorem returns_r85Call (cfg : Cfg) {clr : Bool} (bytes : List Byte) {s : State}
    (h : clr = true ∨ s.r85 = .cleared) :
    ∃ t rs, Returns cfg (r85Call clr bytes) s t rs ∧ AllOk rs ∧ t.r85 = .cleared ∧ (∀ x ∈ outputsOf rs, x < 2 ^ 5) ∧
      convertBits (bytes.map BitVec.toNat) 8 5 true = some (outputsOf rs) ∧
      ∃ p < 5, joinBits 5 (outputsOf rs) = joinBits 8 (bytes.map BitVec.toNat) ++ List.replicate p false := by
  obtain ⟨s₀, hs₀, hcleared⟩ := returns_clrIf (cfg := cfg) (i := .r85Clr) (Cleared := fun s => s.r85 = .cleared) h rfl
    rfl rfl
  obtain ⟨t, rs, ht, hok, hlegal, hlt, hbits⟩ := returns_pushes (cfg := cfg) (src := 8) (dst := 5) (push := .r85Push)
    (Ready := fun s => s.r85.legal) (left := fun s => s.r85.leftover) (vals := bytes)
    (hcleared ▸ R85Regs.cleared_legal : s₀.r85.legal)
    (fun b _ s hs => ⟨_, _, rfl, rfl, push85_status _ _, push85_legal hs b, push85_conserves hs b⟩)
  obtain ⟨hflushlt, htail, p, hp, hpad⟩ := flush85_pads hlegal
  have hleft : s₀.r85.leftover = [] := by rw [hcleared]; rfl
  rw [hleft, List.nil_append] at hbits
  refine ⟨_, _, (hs₀.append ht).append (.single rfl rfl),
    ((allOk_replicate _).append hok).append (allOk_cons (flush85_status _) allOk_nil), rfl, ?_⟩
  simp only [outputsOf_append, outputsOf_replicate Response.outputs_ok, outputsOf_cons, outputsOf_nil, List.nil_append,
    List.append_nil]
  refine ⟨List.forall_mem_append.mpr ⟨hlt, hflushlt⟩, ?_, p, hp, ?_⟩
  · have hrange : ∀ v ∈ bytes.map BitVec.toNat, v < 2 ^ 8 := List.forall_mem_map.mpr fun b _ => b.isLt
    have hshort : t.r85.leftover.length < 5 := by
      rw [R85Regs.length_leftover]
      exact Nat.lt_succ_of_le hlegal.1
    rw [convertBits_of_joinBits hbits.symm hrange hlt hshort, htail]
  · rw [joinBits_append, hpad, ← hbits, List.append_assoc]

theorem target_r85Call (clr : Bool) (bytes : List Byte) : ∀ i ∈ r85Call clr bytes, i.target = .r85 := by
  cases clr <;> simp [r85Call, clrIf, Pseudo.expand, or_imp, forall_and, Instr.target]

/-- Settles O48: the run of the call through the step, and its length from the bits of the symbols. -/
theorem r85CallIsConvertBits : Obligations.R85CallIsConvertBits := by
  intro cfg clr bytes s h
  obtain ⟨t, rs, ht, hok, hcleared, hlt, hconv, p, hp, hpad⟩ := returns_r85Call cfg bytes h
  have hlen := congrArg List.length hpad
  simp only [List.length_append, length_joinBits, List.length_map, List.length_replicate] at hlen
  refine ⟨rs, ?_, ht.length_eq, hok, hconv, by omega, fun x hx => Nat.le_of_lt_succ (hlt x hx)⟩
  rw [ht.run_supply, ht.frame (target_r85Call clr bytes) nofun]
  simp only [State.withUnit, hcleared]
  rfl

/-! ### `R58`: the push -/

/-- The leftover of `R58` as a bit string. -/
def R58Regs.leftover (r : R58Regs) : List Bool := bitsMsb r.bits.toNat r.rem.toNat

@[simp] theorem R58Regs.length_leftover (r : R58Regs) : r.leftover.length = r.bits.toNat := length_bitsMsb _ _

theorem R58Regs.number_leftover {r : R58Regs} (h : r.legal) : number r.leftover = r.rem.toNat := by
  rw [R58Regs.leftover, number_bitsMsb, Nat.mod_eq_of_lt h.2.1]

theorem push58_conserves {r : R58Regs} (h : r.legal) (v : Sym) :
    Conserves 5 8 r.leftover [v.toNat] (push58 r v).2.outputs (push58 r v).1.leftover := by
  obtain ⟨_, hrem, _⟩ := h
  have hjoin : r.leftover ++ bitsMsb 5 v.toNat = bitsMsb (r.bits.toNat + 5) (r.rem.toNat * 32 + v.toNat) :=
    bitsMsb_append _ 5 _ v.toNat v.isLt
  rw [Conserves, joinBits_cons, joinBits_nil, List.append_nil, hjoin]
  by_cases hn : 8 ≤ r.bits.toNat + 5
  · obtain ⟨m, hm⟩ : ∃ m, r.bits.toNat + 5 = 8 + m := ⟨r.bits.toNat - 3, by omega⟩
    have hbits : (BitVec.ofNat 3 m).toNat = m := Nat.mod_eq_of_lt (by omega)
    have hbyte : ∀ t, bitsMsb 8 (BitVec.ofNat 8 (t % 256)).toNat = bitsMsb 8 t := fun t =>
      bitsMsb_ofNat_mod t (k := 8) (by decide)
    rw [push58_completes v hn, hm, bitsMsb_add 8]
    simp only [Nat.add_sub_cancel_left, Response.outputs_ok1, joinBits_cons, joinBits_nil, List.append_nil, hbyte,
      R58Regs.leftover, hbits, bitsMsb_ofNat_mod _ (show m ≤ 7 by omega)]
    exact ⟨List.forall_mem_singleton.mpr (BitVec.isLt _), trivial⟩
  · have hbits : (BitVec.ofNat 3 (r.bits.toNat + 5)).toNat = r.bits.toNat + 5 := Nat.mod_eq_of_lt (by omega)
    have hpow : 2 ^ r.bits.toNat ≤ 2 ^ 2 := Nat.pow_le_pow_right (by decide) (by omega)
    have hvlt : v.toNat < 32 := v.isLt
    have hvalue : (BitVec.ofNat 7 (r.rem.toNat * 32 + v.toNat)).toNat = r.rem.toNat * 32 + v.toNat :=
      Nat.mod_eq_of_lt (by omega)
    rw [push58_accumulates v (Nat.lt_of_not_le hn)]
    simp only [Response.outputs_ok, joinBits_nil, List.nil_append, R58Regs.leftover, hbits, hvalue]
    exact ⟨nofun, trivial⟩

/-! ### `R58`: the end of a call -/

/-- The unit is ready for a symbol: its registers are legal and it is not halted. -/
def State.running58 (s : State) : Prop := s.r58.legal ∧ s.r58.err = false

theorem push58_err (r : R58Regs) (v : Sym) : (push58 r v).1.err = r.err := by
  simp only [push58]
  split <;> rfl

/-- R63: `R58.FIN` succeeds exactly where `ConvertBits` without padding does, and halts with a padding error where that
fails. -/
theorem execR58Fin_convertTail {s : State} (h : s.running58) :
    (∃ t, execR58Fin s = .next t ∧ t.responses = s.responses ++ [.ok] ∧ t.r58 = .cleared ∧
      ∀ outs, convertTail 5 8 false outs s.r58.leftover = some outs) ∨
    (∃ e t, (e = .ePadNonzero ∨ e = .ePadExcess) ∧ execR58Fin s = .next t ∧
      t.responses = s.responses ++ [.error e] ∧ t.r58.err = true ∧ t.r58.code = e.code ∧
      ∀ outs, convertTail 5 8 false outs s.r58.leftover = none) := by
  obtain ⟨hlegal, hrun⟩ := h
  have hnum := R58Regs.number_leftover hlegal
  obtain ⟨h, _⟩ | ⟨_, hr, e⟩ | ⟨_, hr, hb, e⟩ | ⟨_, hr, hb, e⟩ := execR58Fin_cases s
  · simp [hrun] at h
  · have hne : s.r58.rem.toNat ≠ 0 := fun h => hr (BitVec.eq_of_toNat_eq h)
    exact .inr ⟨_, _, .inl rfl, e, rfl, rfl, rfl, fun outs => by simp [convertTail, hnum, hne]⟩
  · exact .inr ⟨_, _, .inr rfl, e, rfl, rfl, rfl, fun outs => by simp [convertTail, hb]⟩
  · obtain ⟨_, _, hcode, _⟩ := hlegal
    refine .inl ⟨_, e, rfl, ?_, fun outs => by simp [convertTail, hnum, hr, Nat.not_le.mpr hb]⟩
    simp [State.setR58, State.respond, R58Regs.cleared, hr, hrun, hcode hrun]

/-- Settles O30: a canonical leftover is nonzero exactly when it is nonzero at the top of a byte. -/
theorem r58FinRejectsTheReferenceSet : Obligations.R58FinRejectsTheReferenceSet := by
  intro s hs h
  obtain ⟨hbits, hrem, _⟩ := hs
  have hlt : s.r58.rem.toNat * 2 ^ (8 - s.r58.bits.toNat) < 256 := calc
    s.r58.rem.toNat * 2 ^ (8 - s.r58.bits.toNat)
      < 2 ^ s.r58.bits.toNat * 2 ^ (8 - s.r58.bits.toNat) := Nat.mul_lt_mul_of_pos_right hrem (Nat.two_pow_pos _)
    _ = 2 ^ 8 := by rw [← Nat.pow_add, Nat.add_sub_cancel' (hbits.trans (by decide))]
  rw [exec_r58Fin, Nat.mod_eq_of_lt hlt]
  obtain ⟨h', _⟩ | ⟨_, hr, e⟩ | ⟨_, hr, hb, e⟩ | ⟨_, hr, hb, e⟩ := execR58Fin_cases s
  · simp [h] at h'
  · have hne : s.r58.rem.toNat ≠ 0 := fun h => hr (BitVec.eq_of_toNat_eq h)
    exact ⟨_, _, e, rfl, iff_of_true nofun (.inr (Nat.mul_ne_zero hne (Nat.two_pow_pos _).ne'))⟩
  · exact ⟨_, _, e, rfl, iff_of_true nofun (.inl hb)⟩
  · exact ⟨_, _, e, rfl, iff_of_false (fun hne => hne rfl) (by simp [hr, Nat.not_le.mpr hb])⟩

/-! ### `R58`: the call -/

theorem target_r58Call (clr : Bool) (vals : List Byte) : ∀ i ∈ r58Call clr vals, i.target = .r58 := by
  cases clr <;> simp [r58Call, clrIf, Pseudo.expand, or_imp, forall_and, Instr.target]

/-- The pushes of a call that starts in the cleared state, while the operands are symbols. -/
theorem returns_r58Pushes (cfg : Cfg) {clr : Bool} {vals : List Byte} {s : State}
    (h : clr = true ∨ s.r58 = .cleared) (hvals : ∀ v ∈ vals, v.toNat ≤ 31) :
    ∃ t rs, Returns cfg (clrIf clr .r58Clr ++ vals.map .r58Push) s t rs ∧ AllOk rs ∧ t.running58 ∧
      Conserves 5 8 [] (vals.map BitVec.toNat) (outputsOf rs) t.r58.leftover := by
  obtain ⟨s₀, hs₀, hcleared⟩ := returns_clrIf (cfg := cfg) (i := .r58Clr) (Cleared := fun s => s.r58 = .cleared) h rfl
    rfl rfl
  have hready : s₀.running58 := by rw [State.running58, hcleared]; exact ⟨R58Regs.cleared_legal, rfl⟩
  obtain ⟨t, rs, ht, hok, hrun, hc⟩ := returns_pushes (cfg := cfg) (src := 5) (dst := 8) (push := .r58Push)
    (left := fun s => s.r58.leftover) hready fun v hv s ⟨hlegal, hrun⟩ =>
      ⟨_, _, execR58Push_of_le hrun (hvals v hv), rfl, push58_status _ _,
        ⟨push58_legal hlegal _, (push58_err _ _).trans hrun⟩,
        toNat_setWidth_five (hvals v hv) ▸ push58_conserves hlegal (v.setWidth 5)⟩
  have hleft : s₀.r58.leftover = [] := by rw [hcleared]; rfl
  refine ⟨t, _, hs₀.append ht, (allOk_replicate _).append hok, hrun, ?_⟩
  rw [outputsOf_append, outputsOf_replicate Response.outputs_ok, List.nil_append, ← hleft]
  exact hc

/-- What the pushes have returned and kept, in the terms of `ConvertBits`. -/
theorem Conserves.convertBits_58 {vals : List Byte} {outs : List Nat} {r : R58Regs} (hr : r.bits.toNat ≤ 7)
    (hvals : ∀ v ∈ vals, v.toNat ≤ 31) (h : Conserves 5 8 [] (vals.map BitVec.toNat) outs r.leftover) :
    convertBits (vals.map BitVec.toNat) 5 8 false = convertTail 5 8 false outs r.leftover ∧
    outs.length = 5 * vals.length / 8 ∧
    outs = groups 8 (5 * vals.length / 8) ((vals.map BitVec.toNat).flatMap (bitsMsb 5)) := by
  obtain ⟨hlt, hbits⟩ := h
  rw [List.nil_append] at hbits
  have hrange : ∀ v ∈ vals.map BitVec.toNat, v < 2 ^ 5 :=
    List.forall_mem_map.mpr fun v hv => Nat.lt_succ_of_le (hvals v hv)
  have hshort : r.leftover.length < 8 := r.length_leftover ▸ Nat.lt_succ_of_le hr
  have hlen : 5 * vals.length / 8 = outs.length := by
    rw [← length_div_of_joinBits hbits.symm hshort, List.length_map]
  refine ⟨convertBits_of_joinBits hbits.symm hrange hlt hshort false, hlen.symm, ?_⟩
  rw [hlen, ← joinBits, ← hbits, groups_joinBits hlt]

/-- A halted `R58` answers a whole sequence of its commands with `E_HALTED` and keeps its registers (rule R95). -/
theorem returns_halted58 (cfg : Cfg) {is : List Instr} {s : State} (h : s.r58.err = true)
    (his : ∀ i ∈ is, i.target = .r58 ∧ i ≠ .r58Clr ∧ i ≠ .r58St) :
    ∃ t, Returns cfg is s t (List.replicate is.length (.error .eHalted)) ∧ t.r58 = s.r58 := by
  induction is generalizing s with
  | nil => exact ⟨s, .nil s, rfl⟩
  | cons i is ih =>
    obtain ⟨⟨hi, hclr, hst⟩, his⟩ := List.forall_mem_cons.mp his
    obtain ⟨t, ht, hkeep⟩ := ih (s := s.respond (.error .eHalted)) h his
    exact ⟨t, .cons (execFor_of_halted cfg (u := .r58) h hi hclr hst) rfl ht, hkeep⟩

/-- R65, operands in range: the call ends as `ConvertBits` does. -/
theorem returns_r58Call (cfg : Cfg) {clr : Bool} {vals : List Byte} {s : State}
    (h : clr = true ∨ s.r58 = .cleared) (hvals : ∀ v ∈ vals, v.toNat ≤ 31) :
    ∃ t rs q, Returns cfg (r58Call clr vals) s t (rs ++ [q]) ∧ AllOk rs ∧
      rs.length = (clrIf clr .r58Clr).length + vals.length ∧
      outputsOf (rs ++ [q]) = groups 8 (5 * vals.length / 8) ((vals.map BitVec.toNat).flatMap (bitsMsb 5)) ∧
      (outputsOf (rs ++ [q])).length = 5 * vals.length / 8 ∧
      ((q.status = .ok ∧ t.r58 = .cleared ∧
          convertBits (vals.map BitVec.toNat) 5 8 false = some (outputsOf (rs ++ [q]))) ∨
        ((q.status = .ePadNonzero ∨ q.status = .ePadExcess) ∧ t.r58.err = true ∧ t.r58.code = q.status.code ∧
          convertBits (vals.map BitVec.toNat) 5 8 false = none)) := by
  obtain ⟨t, rs, ht, hok, hrun, hc⟩ := returns_r58Pushes cfg h hvals
  obtain ⟨hconv, hlen, hgroups⟩ := hc.convertBits_58 hrun.1.1 hvals
  have hrs : rs.length = (clrIf clr .r58Clr).length + vals.length := by simpa using ht.length_eq
  obtain ⟨u, hu, hr, hcleared, htail⟩ | ⟨e, u, he, hu, hr, herr, hcode, htail⟩ := execR58Fin_convertTail hrun
  · have houts : outputsOf (rs ++ [.ok]) = outputsOf rs := by simp
    refine ⟨u, rs, .ok, ht.append (.single hu hr), hok, hrs, houts ▸ hgroups, houts ▸ hlen, .inl ⟨rfl, hcleared, ?_⟩⟩
    rw [hconv, houts, htail]
  · have houts : outputsOf (rs ++ [.error e]) = outputsOf rs := by simp
    exact ⟨u, rs, .error e, ht.append (.single hu hr), hok, hrs, houts ▸ hgroups, houts ▸ hlen,
      .inr ⟨he, herr, hcode, hconv.trans (htail _)⟩⟩

/-- R65: where `ConvertBits` succeeds the call returns its result. -/
theorem returns_r58Call_of_convertBits (cfg : Cfg) {clr : Bool} {vals : List Byte} {out : List Nat} {s : State}
    (h : clr = true ∨ s.r58 = .cleared) (hout : convertBits (vals.map BitVec.toNat) 5 8 false = some out) :
    ∃ t rs, Returns cfg (r58Call clr vals) s t rs ∧ AllOk rs ∧ t.r58 = .cleared ∧ outputsOf rs = out ∧
      out.length = 5 * vals.length / 8 := by
  have hvals : ∀ v ∈ vals, v.toNat ≤ 31 := by
    intro v hv
    by_contra hgt
    cases hout.symm.trans (convertBits_eq_none_of_mem (List.mem_map_of_mem hv) (Nat.lt_of_not_le hgt) 8 false)
  obtain ⟨t, rs, q, ht, hok, _, _, hlen, ⟨hq, hcleared, hconv⟩ | ⟨_, _, _, hconv⟩⟩ := returns_r58Call cfg h hvals
  · obtain rfl := Option.some.inj (hconv.symm.trans hout)
    exact ⟨t, _, ht, hok.append (allOk_cons hq allOk_nil), hcleared, rfl, hlen⟩
  · cases hconv.symm.trans hout

/-- R65, an operand out of range: the call halts there and everything after it is refused. -/
theorem returns_r58Call_range (cfg : Cfg) {clr : Bool} {pre post : List Byte} {v : Byte} {s : State}
    (h : clr = true ∨ s.r58 = .cleared) (hpre : ∀ x ∈ pre, x.toNat ≤ 31) (hv : 31 < v.toNat) :
    ∃ t rs, Returns cfg (r58Call clr (pre ++ v :: post)) s t
        (rs ++ [.error .eRange] ++ List.replicate (post.length + 1) (.error .eHalted)) ∧
      AllOk rs ∧ rs.length = (clrIf clr .r58Clr).length + pre.length ∧ t.r58.err = true ∧ t.r58.code = 4 ∧
      outputsOf rs = groups 8 (5 * pre.length / 8) ((pre.map BitVec.toNat).flatMap (bitsMsb 5)) := by
  obtain ⟨x, rs, hx, hok, hrun, hc⟩ := returns_r58Pushes cfg h hpre
  obtain ⟨_, _, hgroups⟩ := hc.convertBits_58 hrun.1.1 hpre
  have hrs : rs.length = (clrIf clr .r58Clr).length + pre.length := by simpa using hx.length_eq
  have hpush : execFor cfg (.r58Push v) x = raiseHalt .r58 .eRange x := by
    change execR58Push v x = _
    rw [execR58Push, guardR58_of_running hrun.2, symbol?_of_gt hv]
  obtain ⟨t, ht, hkeep⟩ := returns_halted58 cfg (is := post.map .r58Push ++ [.r58Fin])
    (s := (x.halt .r58 .eRange).respond (.error .eRange)) rfl (by simp [or_imp, forall_and, Instr.target])
  rw [List.length_append, List.length_map] at ht
  refine ⟨t, rs, ?_, hok, hrs, by rw [hkeep]; rfl, by rw [hkeep]; rfl, hgroups⟩
  have hcall : r58Call clr (pre ++ v :: post) =
      clrIf clr .r58Clr ++ pre.map .r58Push ++ [.r58Push v] ++ (post.map .r58Push ++ [.r58Fin]) := by
    simp [r58Call, Pseudo.expand]
  rw [hcall]
  exact (hx.append (.single hpush rfl)).append ht

/-- Settles O49: each clause describes the one run of the call, which is the one computed for its operands. -/
theorem r58CallIsConvertBits : Obligations.R58CallIsConvertBits := by
  intro cfg clr vals s h
  obtain ⟨t, rs, ht⟩ := returns_exists cfg (r58Call clr vals) s
  refine ⟨t, rs, ht.run_supply, ht.frame (target_r58Call clr vals) nofun, fun out hout => ?_,
    fun pre v post hvals hpre hv => ?_, fun hvals hnone => ?_⟩
  · obtain ⟨t', rs', ht', hok, hcleared, houts, hlen⟩ := returns_r58Call_of_convertBits cfg h hout
    obtain ⟨rfl, rfl⟩ := ht.unique ht'
    exact ⟨hcleared, hok, houts, hlen⟩
  · subst hvals
    obtain ⟨t', rs', ht', hok, hlen, herr, hcode, hgroups⟩ := returns_r58Call_range cfg h hpre hv (post := post)
    obtain ⟨rfl, rfl⟩ := ht.unique ht'
    refine ⟨herr, hcode, ?_, ?_⟩
    · simp [hok.map_status, hlen, Response.error]
    · simp [hgroups, outputsOf_replicate (Response.outputs_error .eHalted)]
  · obtain ⟨t', rs', q, ht', hok, hlen, hgroups, _, ⟨_, _, hconv⟩ | ⟨hq, herr, hcode, _⟩⟩ := returns_r58Call cfg h hvals
    · cases hconv.symm.trans hnone
    · obtain ⟨rfl, rfl⟩ := ht.unique ht'
      exact ⟨q.status, hq, herr, hcode, by simp [hok.map_status, hlen], hgroups⟩

/-! ### From bytes to symbols and back -/

theorem number_replicate_false (p : Nat) : number (List.replicate p false) = 0 := by
  rw [← bitsMsb_of_zero, number_bitsMsb, Nat.zero_mod]

/-- Symbols that spell bytes with fewer than five zeros behind them regroup to those bytes. -/
theorem convertBits_padded {bytes : List Byte} {syms : List Nat} {p : Nat} (hsyms : ∀ x ∈ syms, x < 2 ^ 5)
    (hp : p < 5) (hpad : joinBits 5 syms = joinBits 8 (bytes.map BitVec.toNat) ++ List.replicate p false) :
    convertBits syms 5 8 false = some (bytes.map BitVec.toNat) := by
  rw [convertBits_of_joinBits hpad hsyms (List.forall_mem_map.mpr fun b _ => b.isLt)
    (by rw [List.length_replicate]; omega)]
  simp [convertTail, number_replicate_false, hp]

theorem map_toNat_map_ofNat {l : List Nat} (h : ∀ x ∈ l, x < 2 ^ 5) :
    (l.map (BitVec.ofNat 8)).map BitVec.toNat = l := by
  rw [List.map_map]
  refine (List.map_congr_left fun x hx => ?_).trans (List.map_id l)
  exact Nat.mod_eq_of_lt ((h x hx).trans (by decide))

/-- Settles O50: the symbols spell the bytes and less than a symbol of zeros, which regroup to the bytes. -/
theorem regroupingRoundTrip : Obligations.RegroupingRoundTrip := by
  intro cfg bytes s h85 h58
  obtain ⟨t, rs, ht, _, hcleared, hlt, _, p, hp, hpad⟩ := returns_r85Call cfg (clr := false) bytes (.inr h85)
  obtain rfl := ht.eq_of_sameUnit (target_r85Call false bytes) nofun (hcleared.trans h85.symm)
  obtain ⟨u, qs, hu, hok, hcleared', houts, _⟩ := returns_r58Call_of_convertBits cfg (clr := false)
    (vals := (outputsOf rs).map (BitVec.ofNat 8)) (s := { s with responses := s.responses ++ rs }) (.inr h58)
    (map_toNat_map_ofNat hlt ▸ convertBits_padded hlt hp hpad)
  obtain rfl := hu.eq_of_sameUnit (target_r58Call false _) nofun (hcleared'.trans h58.symm)
  exact ⟨rs, qs, ht.run_supply, hu.run_supply, hok, houts⟩

end Sys2Proof.Machine
end


section
/-! SUPPORT. The calls of `BCH` (rules R80, R103): the symbols of a call are absorbed one by one, and the six checksum
symbols are read from the accumulator they leave. -/

namespace Sys2Proof.Machine

/-! ### Feeding symbols -/

theorem absorbAll_append (cfg : Cfg) (c : Acc) (s t : List Sym) :
    absorbAll cfg c (s ++ t) = absorbAll cfg (absorbAll cfg c s) t :=
  List.foldl_append

@[simp] theorem absorbAll_nil (cfg : Cfg) (c : Acc) : absorbAll cfg c [] = c := rfl

@[simp] theorem absorbAll_cons (cfg : Cfg) (c : Acc) (v : Sym) (s : List Sym) :
    absorbAll cfg c (v :: s) = absorbAll cfg (absorb cfg c v) s := rfl

/-- Every response is `OK` and carries no data. -/
def AllSilent (rs : List Response) : Prop := ∀ r ∈ rs, r = .ok

theorem allSilent_replicate (n : Nat) : AllSilent (List.replicate n .ok) := fun _ => List.eq_of_mem_replicate

theorem AllSilent.append {rs qs : List Response} (h : AllSilent rs) (h' : AllSilent qs) : AllSilent (rs ++ qs) :=
  List.forall_mem_append.mpr ⟨h, h'⟩

theorem AllSilent.allOk {rs : List Response} (h : AllSilent rs) : AllOk rs := fun r hr => h r hr ▸ rfl

theorem AllSilent.outputsOf {rs : List Response} (h : AllSilent rs) : outputsOf rs = [] :=
  List.flatMap_eq_nil_iff.mpr fun r hr => h r hr ▸ rfl

/-- A sequence of commands that each absorb one symbol in the phases `ps` and leave the phase `q`. -/
theorem returns_absorbing {α : Type} {cfg : Cfg} {cmd : α → Instr} {sym : α → Sym} {ps : List Phase} {q : Phase}
    (hq : q ∈ ps) (hcmd : ∀ a s, s.bch.err = false → s.bch.phase ∈ ps →
      execFor cfg (cmd a) s = answer .ok (s.absorbBch cfg [sym a] q))
    (xs : List α) {s : State} {c : Acc} {p : Phase} (hp : p ∈ ps) (hs : s.bch = ⟨c, p, false, 0⟩) :
    ∃ t, Returns cfg (xs.map cmd) s t (List.replicate xs.length .ok) ∧
      t.bch = ⟨absorbAll cfg c (xs.map sym), if xs.isEmpty then p else q, false, 0⟩ := by
  induction xs generalizing s c p with
  | nil => exact ⟨s, .nil s, hs⟩
  | cons x xs ih =>
    have hexec := hcmd x s (by rw [hs]) (by rw [hs]; exact hp)
    obtain ⟨t, ht, hbch⟩ := ih hq (s := (s.absorbBch cfg [sym x] q).respond .ok) (c := absorb cfg c (sym x))
      (p := q) (by rw [State.respond_bch, State.absorbBch_bch, hs]; rfl)
    exact ⟨t, .cons hexec rfl ht, by simpa using hbch⟩

theorem execFor_bchHrph_accepted (cfg : Cfg) (c : Byte) (s : State) (h : s.bch.err = false)
    (hp : s.bch.phase ∈ [Phase.hrpHi]) :
    execFor cfg (.bchHrph c) s = answer .ok (s.absorbBch cfg [hrpHigh c] .hrpHi) := by
  rw [execFor_bchHrph, execBchHrphFor, guardBch_of_accepted h hp, List.mem_singleton.mp hp]

theorem execFor_bchHrpl_accepted (cfg : Cfg) (c : Byte) (s : State) (h : s.bch.err = false)
    (hp : s.bch.phase ∈ [Phase.hrpLo]) :
    execFor cfg (.bchHrpl c) s = answer .ok (s.absorbBch cfg [hrpLow c] .hrpLo) := by
  rw [execFor_bchHrpl, execBchHrplFor, guardBch_of_accepted h hp, List.mem_singleton.mp hp]

theorem execFor_bchSym_accepted (cfg : Cfg) (v : Sym) (s : State) (h : s.bch.err = false)
    (hp : s.bch.phase ∈ [Phase.hrpLo, .data]) :
    execFor cfg (.bchSym (symOperand v)) s = answer .ok (s.absorbBch cfg [v] .data) := by
  rw [execFor_bchSym, execBchSymFor, guardBch_of_accepted h hp, symOperand, symbol?_setWidth]

/-- The common beginning of the calls of `BCH`: everything is absorbed, in the order of `HrpExpand`. -/
theorem returns_bchFeed (cfg : Cfg) {clr : Bool} (hrp : List Byte) (syms : List Sym) {s : State}
    (h : clr = true ∨ s.bch = .cleared cfg) :
    ∃ t rs, Returns cfg (bchFeed clr hrp syms) s t rs ∧ AllSilent rs ∧
      t.bch = ⟨polymod cfg (hrpExpand hrp ++ syms), if syms.isEmpty then .hrpLo else .data, false, 0⟩ := by
  obtain ⟨s₀, h₀, hb₀⟩ := returns_clrIf (cfg := cfg) (i := .bchClr) (Cleared := fun s => s.bch = .cleared cfg) h rfl rfl
    rfl
  obtain ⟨s₁, h₁, hb₁⟩ := returns_absorbing (List.mem_singleton_self _) (execFor_bchHrph_accepted cfg) hrp
    (List.mem_singleton_self _) hb₀
  rw [ite_self] at hb₁
  have hsep : execFor cfg .bchHsep s₁ = answer .ok (s₁.absorbBch cfg [0] .hrpLo) :=
    guardBch_of_accepted (by rw [hb₁]) (by rw [hb₁]; exact List.mem_singleton_self _)
  obtain ⟨s₂, h₂, hb₂⟩ := returns_absorbing (List.mem_singleton_self _) (execFor_bchHrpl_accepted cfg) hrp
    (s := (s₁.absorbBch cfg [0] .hrpLo).respond .ok) (List.mem_singleton_self _)
    (by rw [State.respond_bch, State.absorbBch_bch, hb₁])
  rw [ite_self] at hb₂
  obtain ⟨s₃, h₃, hb₃⟩ := returns_absorbing (by decide) (execFor_bchSym_accepted cfg) syms (by decide) hb₂
  have hfeed : bchFeed clr hrp syms = clrIf clr .bchClr ++ (hrp.map .bchHrph ++ [.bchHsep] ++ hrp.map .bchHrpl) ++
      syms.map (fun v => .bchSym (symOperand v)) := by
    simp [bchFeed, Pseudo.expand]
  refine ⟨s₃, _, hfeed ▸ (h₀.append ((h₁.append (.single hsep rfl)).append h₂)).append h₃,
    ((allSilent_replicate _).append (((allSilent_replicate _).append (allSilent_replicate 1)).append
      (allSilent_replicate _))).append (allSilent_replicate _), ?_⟩
  rw [hb₃]
  simp [polymod, hrpExpand, absorbAll_append]

/-! ### Reading the checksum -/

/-- The symbols of a checksum in the order in which they are read (rules R29, R50). -/
def checksumSymbols (p : Acc) : List Sym := (List.finRange 6).map (cksumSymbol p)

theorem computeChecksum_eq (cfg : Cfg) (hrp : List Byte) (data : List Sym) :
    computeChecksum cfg hrp data =
      checksumSymbols (polymod cfg (hrpExpand hrp ++ data ++ [0, 0, 0, 0, 0, 0]) ^^^ cfg.finalConst) := rfl

theorem expand_bchCksum6 :
    Pseudo.bchCksum6.expand = (List.finRange 6).map fun i => .bchCksum (.ofNat 8 i.val) := rfl

/-- A sequence of reads in phase `DONE`: the symbols asked for, nothing written. -/
theorem returns_cksums {cfg : Cfg} (is : List (Fin 6)) {s : State} (h : s.bch.err = false) (hp : s.bch.phase = .done) :
    ∃ t rs, Returns cfg (is.map fun i => .bchCksum (.ofNat 8 i.val)) s t rs ∧ AllOk rs ∧ t.bch = s.bch ∧
      outputsOf rs = is.map fun i => (cksumSymbol (s.bch.chk ^^^ cfg.finalConst) i).toNat := by
  induction is generalizing s with
  | nil => exact ⟨s, [], .nil s, allOk_nil, rfl, rfl⟩
  | cons i is ih =>
    have hi : (BitVec.ofNat 8 i.val).toNat = i.val := Nat.mod_eq_of_lt (i.isLt.trans (by decide))
    have hread : execFor cfg (.bchCksum (.ofNat 8 i.val)) s =
        answer (.ok1 ((cksumSymbol (s.bch.chk ^^^ cfg.finalConst) i).setWidth 8)) s := by
      rw [execFor_bchCksum, execBchCksumFor, guardBch_of_accepted h (List.mem_singleton.mpr hp),
        cksumIndex?_of_le (by omega)]
      simp only [hi]
    obtain ⟨t, rs, ht, hok, hbch, houts⟩ := ih (s := s.respond _) h hp
    exact ⟨t, _, .cons hread rfl ht, allOk_cons rfl hok, hbch, by
      rw [outputsOf_cons, houts, Response.outputs_ok1, BitVec.toNat_setWidth_of_le (by decide)]; rfl⟩

/-! ### The calls -/

/-- R80 (a): the compute call returns `ComputeChecksum`. -/
theorem returns_bchComputeCall (cfg : Cfg) {clr : Bool} (hrp : List Byte) (data : List Sym) {s : State}
    (h : clr = true ∨ s.bch = .cleared cfg) :
    ∃ t rs, Returns cfg (bchComputeCall clr hrp data) s t rs ∧ AllOk rs ∧
      t.bch = ⟨polymod cfg (hrpExpand hrp ++ data ++ [0, 0, 0, 0, 0, 0]), .done, false, 0⟩ ∧
      outputsOf rs = (computeChecksum cfg hrp data).map BitVec.toNat := by
  obtain ⟨s₁, rs₁, h₁, hsilent, hb₁⟩ := returns_bchFeed cfg hrp data h
  have hphase : s₁.bch.phase ∈ [Phase.hrpLo, .data] := by
    rw [hb₁]
    cases data <;> simp
  have hfin : execFor cfg .bchFin s₁ = answer .ok (s₁.absorbBch cfg sixZeros .done) :=
    guardBch_of_accepted (by rw [hb₁]) hphase
  have hb₂ : ((s₁.absorbBch cfg sixZeros .done).respond .ok).bch =
      ⟨polymod cfg (hrpExpand hrp ++ data ++ [0, 0, 0, 0, 0, 0]), .done, false, 0⟩ := by
    rw [State.respond_bch, State.absorbBch_bch, hb₁]
    simp [polymod, absorbAll_append, sixZeros]
  obtain ⟨t, rs, ht, hok, hbch, houts⟩ := returns_cksums (cfg := cfg) (List.finRange 6)
    (s := (s₁.absorbBch cfg sixZeros .done).respond .ok) (by rw [hb₂]) (by rw [hb₂])
  rw [bchComputeCall, expand_bchCksum6]
  refine ⟨t, _, (h₁.append (.single hfin rfl)).append ht, (hsilent.allOk.append (allOk_replicate 1)).append hok,
    hbch.trans hb₂, ?_⟩
  rw [outputsOf_append, outputsOf_append, hsilent.outputsOf, houts, hb₂, computeChecksum_eq, checksumSymbols,
    List.map_map]
  rfl

/-- R80 (b): the verify call returns `VerifyChecksum`. -/
theorem returns_bchVerifyCall (cfg : Cfg) {clr : Bool} (hrp : List Byte) {syms : List Sym} {s : State}
    (h : clr = true ∨ s.bch = .cleared cfg) (hsyms : syms ≠ []) :
    ∃ t rs, Returns cfg (bchVerifyCall clr hrp syms) s t rs ∧ AllOk rs ∧
      t.bch = ⟨polymod cfg (hrpExpand hrp ++ syms), .data, false, 0⟩ ∧
      outputsOf rs = [if verifyChecksum cfg hrp syms then 1 else 0] := by
  obtain ⟨t, rs, ht, hsilent, hbch⟩ := returns_bchFeed cfg hrp syms h
  rw [if_neg (by simpa using hsyms)] at hbch
  have hverify : execFor cfg .bchVerify t =
      answer (.ok1 (if polymod cfg (hrpExpand hrp ++ syms) = cfg.finalConst then 1 else 0)) t := by
    rw [execFor_bchVerify, execBchVerifyFor,
      guardBch_of_accepted (by rw [hbch]) (by rw [hbch]; exact List.mem_singleton_self _), hbch]
  refine ⟨_, _, ht.append (.single hverify rfl), hsilent.allOk.append (allOk_cons rfl allOk_nil), hbch, ?_⟩
  rw [outputsOf_append, hsilent.outputsOf, verifyChecksum]
  by_cases hv : polymod cfg (hrpExpand hrp ++ syms) = cfg.finalConst <;> simp [hv]

theorem target_bchFeed (clr : Bool) (hrp : List Byte) (syms : List Sym) :
    ∀ i ∈ bchFeed clr hrp syms, i.target = .bch := by
  cases clr <;> simp [bchFeed, clrIf, Pseudo.expand, or_imp, forall_and, Instr.target]

theorem target_bchComputeCall (clr : Bool) (hrp : List Byte) (data : List Sym) :
    ∀ i ∈ bchComputeCall clr hrp data, i.target = .bch := by
  simp only [bchComputeCall, List.forall_mem_append]
  exact ⟨⟨target_bchFeed clr hrp data, by decide⟩, by decide⟩

theorem target_bchVerifyCall (clr : Bool) (hrp : List Byte) (syms : List Sym) :
    ∀ i ∈ bchVerifyCall clr hrp syms, i.target = .bch := by
  simp only [bchVerifyCall, List.forall_mem_append]
  exact ⟨target_bchFeed clr hrp syms, by decide⟩

/-- Settles O51: the runs of the two calls through the step. -/
theorem bchCallsComputeAndVerify : Obligations.BchCallsComputeAndVerify := by
  refine ⟨fun cfg clr hrp data s h => ?_, fun cfg clr hrp syms s h hsyms => ?_⟩
  · obtain ⟨t, rs, ht, hok, hbch, houts⟩ := returns_bchComputeCall cfg hrp data h
    refine ⟨rs, ?_, ht.length_eq, hok, houts⟩
    rw [ht.run_supply, ht.frame (target_bchComputeCall clr hrp data) nofun]
    simp only [State.withUnit, hbch]
    rfl
  · obtain ⟨t, rs, ht, hok, hbch, houts⟩ := returns_bchVerifyCall cfg hrp h hsyms
    refine ⟨rs, ?_, ht.length_eq, hok, houts⟩
    rw [ht.run_supply, ht.frame (target_bchVerifyCall clr hrp syms) nofun]
    simp only [State.withUnit, hbch]
    rfl

end Sys2Proof.Machine
end

section
/-! SUPPORT. The checksum over GF(2): a checksum verifies exactly when it is the computed one, and one changed symbol
changes the residue (rules R81, R82). -/

namespace Sys2Proof.Machine

/-! ### Linearity of a sequence -/

/-- What is absorbed splits into what the accumulator held and what the symbols bring. -/
theorem absorbAll_xor (cfg : Cfg) (c d : Acc) (s : List Sym) :
    absorbAll cfg (c ^^^ d) s = absorbAll cfg c (List.replicate s.length 0) ^^^ absorbAll cfg d s := by
  induction s generalizing c d with
  | nil => rfl
  | cons v s ih =>
    have hstep : absorb cfg (c ^^^ d) v = absorb cfg c 0 ^^^ absorb cfg d v := by
      simpa using absorb_xor cfg c d 0 v
    rw [absorbAll_cons, hstep, ih]
    rfl

/-! ### An accumulator whose top five bits are zero -/

theorem mul_32_xor (a : Nat) {v : Nat} (hv : v < 32) : a * 32 ^^^ v = a * 32 + v := by
  have hhigh : (a * 32 ^^^ v) / 32 = a := by
    rw [Nat.xor_div_two_pow (n := 5), Nat.mul_div_cancel a (by decide), Nat.div_eq_of_lt hv, Nat.xor_zero]
  have hlow : (a * 32 ^^^ v) % 32 = v := by
    rw [Nat.xor_mod_two_pow (n := 5), Nat.mul_mod_left, Nat.mod_eq_of_lt hv, Nat.zero_xor]
  omega

/-- No constant is selected, so the accumulator moves up and the symbol fills the place left free. -/
theorem toNat_absorb_of_lt (cfg : Cfg) {c : Acc} (h : c.toNat < 2 ^ 25) (v : Sym) :
    (absorb cfg c v).toNat = c.toNat * 32 + v.toNat := by
  have htop : c.extractLsb' 25 5 = 0 := by
    apply BitVec.eq_of_toNat_eq
    rw [BitVec.extractLsb'_toNat, Nat.shiftRight_eq_div_pow, Nat.div_eq_of_lt h]
    rfl
  have hmix : genMix cfg 0 = 0 := by simp [genMix]
  rw [toNat_absorb, htop, hmix, Nat.mod_eq_of_lt h, mul_32_xor _ v.isLt]
  exact Nat.xor_zero _

/-- The value of symbols written one behind the other behind `a`. -/
def packedValue (a : Nat) (s : List Sym) : Nat := s.foldl (fun a v => a * 32 + v.toNat) a

/-- Symbols absorbed by an accumulator that has room for them are written behind what it holds. -/
theorem toNat_absorbAll_of_lt (cfg : Cfg) {s : List Sym} {c : Acc} (hs : s.length ≤ 6)
    (h : c.toNat < 2 ^ (5 * (6 - s.length))) : (absorbAll cfg c s).toNat = packedValue c.toNat s := by
  induction s generalizing c with
  | nil => rfl
  | cons v s ih =>
    rw [List.length_cons] at hs h
    have hroom : 2 ^ (5 * (6 - s.length)) = 2 ^ (5 * (6 - (s.length + 1))) * 32 := by
      rw [show 5 * (6 - s.length) = 5 * (6 - (s.length + 1)) + 5 by omega, Nat.pow_add]
    have hfree : c.toNat < 2 ^ 25 := h.trans_le (Nat.pow_le_pow_right (by decide) (by omega))
    have hv : v.toNat < 32 := v.isLt
    have hstep := toNat_absorb_of_lt cfg hfree v
    rw [absorbAll_cons, ih (by omega) (by omega), hstep]
    rfl

/-! ### Six symbols and their packing -/

/-- The last digit of a value in base 32, and the value of the others. -/
theorem mul_32_add_eq_iff {a v n : Nat} (hv : v < 32) : a * 32 + v = n ↔ a = n / 32 ∧ v = n % 32 := by
  omega

section
variable (k0 k1 k2 k3 k4 k5 : Sym)

theorem toNat_pack : (pack k0 k1 k2 k3 k4 k5).toNat = packedValue 0 [k0, k1, k2, k3, k4, k5] := by
  have hpack : (pack k0 k1 k2 k3 k4 k5).toNat = _ := toNat_append_eq_add (k0 ++ k1 ++ k2 ++ k3 ++ k4) k5
  rw [hpack, toNat_append_eq_add, toNat_append_eq_add, toNat_append_eq_add, toNat_append_eq_add]
  simp [packedValue]

theorem absorbAll_zero_six (cfg : Cfg) : absorbAll cfg 0 [k0, k1, k2, k3, k4, k5] = pack k0 k1 k2 k3 k4 k5 :=
  BitVec.eq_of_toNat_eq <|
    (toNat_absorbAll_of_lt cfg (s := [k0, k1, k2, k3, k4, k5]) (c := 0) (Nat.le_refl 6) Nat.one_pos).trans
      (toNat_pack k0 k1 k2 k3 k4 k5).symm

/-- R81: the last six symbols enter the residue as they are. -/
theorem polymod_six (cfg : Cfg) (s : List Sym) :
    polymod cfg (s ++ [k0, k1, k2, k3, k4, k5]) =
      polymod cfg (s ++ [0, 0, 0, 0, 0, 0]) ^^^ pack k0 k1 k2 k3 k4 k5 := by
  rw [polymod, absorbAll_append, ← absorbAll_zero_six k0 k1 k2 k3 k4 k5 cfg, polymod, absorbAll_append]
  simpa using absorbAll_xor cfg (absorbAll cfg cfg.chkInit s) 0 [k0, k1, k2, k3, k4, k5]

theorem toNat_cksumSymbol (p : Acc) (i : Fin 6) : (cksumSymbol p i).toNat = p.toNat / 2 ^ (5 * (5 - i.val)) % 32 := by
  rw [cksumSymbol, BitVec.extractLsb'_toNat, Nat.shiftRight_eq_div_pow]

/-- Packing and reading the six symbols are inverse to each other (rule R29). -/
theorem pack_eq_iff (p : Acc) : pack k0 k1 k2 k3 k4 k5 = p ↔ [k0, k1, k2, k3, k4, k5] = checksumSymbols p := by
  have hlist : [k0, k1, k2, k3, k4, k5] = checksumSymbols p ↔
      k0 = cksumSymbol p 0 ∧ k1 = cksumSymbol p 1 ∧ k2 = cksumSymbol p 2 ∧ k3 = cksumSymbol p 3 ∧
      k4 = cksumSymbol p 4 ∧ k5 = cksumSymbol p 5 := by
    simp [checksumSymbols, List.finRange_succ]
  have htop : p.toNat / 2 ^ 25 % 32 = p.toNat / 2 ^ 25 := Nat.mod_eq_of_lt (Nat.div_lt_of_lt_mul p.isLt)
  have e0 : (cksumSymbol p 0).toNat = p.toNat / 2 ^ 25 := (toNat_cksumSymbol p 0).trans htop
  have e1 : (cksumSymbol p 1).toNat = p.toNat / 2 ^ 20 % 32 := toNat_cksumSymbol p 1
  have e2 : (cksumSymbol p 2).toNat = p.toNat / 2 ^ 15 % 32 := toNat_cksumSymbol p 2
  have e3 : (cksumSymbol p 3).toNat = p.toNat / 2 ^ 10 % 32 := toNat_cksumSymbol p 3
  have e4 : (cksumSymbol p 4).toNat = p.toNat / 2 ^ 5 % 32 := toNat_cksumSymbol p 4
  have e5 : (cksumSymbol p 5).toNat = p.toNat % 32 := (toNat_cksumSymbol p 5).trans (by simp)
  rw [hlist]
  simp only [← BitVec.toNat_inj, toNat_pack, packedValue, List.foldl_cons, List.foldl_nil, e0, e1, e2, e3, e4, e5]
  rw [mul_32_add_eq_iff k5.isLt, mul_32_add_eq_iff k4.isLt, mul_32_add_eq_iff k3.isLt, mul_32_add_eq_iff k2.isLt,
    mul_32_add_eq_iff k1.isLt]
  simp [Nat.div_div_eq_div_mul, and_assoc]

end

/-- Settles O52: the residue is the final constant exactly when the six symbols pack to the rest. -/
theorem checksumVerifiesExactlyWhenComputed : Obligations.ChecksumVerifiesExactlyWhenComputed := by
  refine ⟨fun cfg s k0 k1 k2 k3 k4 k5 => polymod_six k0 k1 k2 k3 k4 k5 cfg s, fun cfg hrp data ck hck => ?_⟩
  match ck, hck with
  | [k0, k1, k2, k3, k4, k5], _ =>
    rw [computeChecksum_eq, ← pack_eq_iff, verifyChecksum, decide_eq_true_iff, ← List.append_assoc, polymod_six]
    generalize polymod cfg _ = r
    constructor
    · intro h
      rw [← h, ← BitVec.xor_assoc, BitVec.xor_self, BitVec.zero_xor]
    · intro h
      rw [h, ← BitVec.xor_assoc, BitVec.xor_self, BitVec.zero_xor]

/-! ### One changed symbol -/

/-- The low five bits of a step that absorbs zero are the combination of constants that the shifted-out bits select. -/
theorem extractLsb'_absorb_zero (cfg : Cfg) (c : Acc) :
    (absorb cfg c 0).extractLsb' 0 5 = lowCombination cfg (c.extractLsb' 25 5) := by
  have hshift : ((c.extractLsb' 0 25).setWidth 30 <<< 5).extractLsb' 0 5 = 0 := by
    apply BitVec.eq_of_toNat_eq
    rw [BitVec.extractLsb'_toNat, toNat_shiftedLow, Nat.shiftRight_zero]
    exact Nat.mul_mod_left _ 32
  have hzero : ((0 : Sym).setWidth 30).extractLsb' 0 5 = 0 := rfl
  rw [absorb, BitVec.extractLsb'_xor, BitVec.extractLsb'_xor, hshift, hzero, lowCombination]
  exact BitVec.zero_xor

/-- Two accumulators that absorb zero to the same value are the same. -/
theorem absorb_zero_injective {cfg : Cfg} (h : lowIndependent cfg) : Function.Injective (fun c => absorb cfg c 0) := by
  have hkernel : ∀ c, absorb cfg c 0 = 0 → c = 0 := by
    intro c hc
    have htop : c.extractLsb' 25 5 = 0 := h _ (by rw [← extractLsb'_absorb_zero, hc]; rfl)
    have hlt : c.toNat < 2 ^ 25 := by
      have hdiv : c.toNat / 2 ^ 25 % 32 = 0 := by
        rw [← Nat.shiftRight_eq_div_pow]
        exact (BitVec.extractLsb'_toNat 25 5 c).symm.trans (congrArg BitVec.toNat htop)
      have hlt30 : c.toNat < 2 ^ 30 := c.isLt
      omega
    have hval : (0 : Acc).toNat = c.toNat * 32 + (0 : Sym).toNat := hc ▸ toNat_absorb_of_lt cfg hlt 0
    have hzero : c.toNat * 32 = 0 := hval.symm
    exact BitVec.eq_of_toNat_eq (show c.toNat = 0 by omega)
  intro c d hcd
  have hxor : absorb cfg (c ^^^ d) 0 = 0 := by
    have hlin := absorb_xor cfg c d 0 0
    rw [show absorb cfg c 0 = absorb cfg d 0 from hcd] at hlin
    exact hlin.trans BitVec.xor_self
  exact BitVec.xor_eq_zero_iff.mp (hkernel _ hxor)

theorem absorb_eq_xor (cfg : Cfg) (c : Acc) (v : Sym) : absorb cfg c v = absorb cfg c 0 ^^^ absorb cfg 0 v := by
  simpa using absorb_xor cfg c 0 0 v

theorem absorb_injective_left {cfg : Cfg} (h : lowIndependent cfg) (v : Sym) :
    Function.Injective (fun c => absorb cfg c v) := by
  intro c d hcd
  change absorb cfg c v = absorb cfg d v at hcd
  rw [absorb_eq_xor cfg c v, absorb_eq_xor cfg d v] at hcd
  exact absorb_zero_injective h ((BitVec.xor_left_inj _).mp hcd)

theorem absorb_injective_right (cfg : Cfg) (c : Acc) : Function.Injective (absorb cfg c) := by
  intro v w hvw
  rw [absorb_eq_xor cfg c v, absorb_eq_xor cfg c w] at hvw
  have hval := congrArg BitVec.toNat ((BitVec.xor_right_inj _).mp hvw)
  rw [toNat_absorb_of_lt cfg (by decide), toNat_absorb_of_lt cfg (by decide)] at hval
  exact BitVec.eq_of_toNat_eq (by simpa using hval)

theorem absorbAll_injective {cfg : Cfg} (h : lowIndependent cfg) (s : List Sym) :
    Function.Injective (fun c => absorbAll cfg c s) := by
  induction s with
  | nil => exact fun _ _ hcd => hcd
  | cons v s ih => exact fun c d hcd => absorb_injective_left h v (ih hcd)

/-- R82: two sequences that differ in one symbol have different residues. -/
theorem polymod_ne_of_ne {cfg : Cfg} (h : lowIndependent cfg) (pre post : List Sym) {x y : Sym} (hxy : x ≠ y) :
    polymod cfg (pre ++ x :: post) ≠ polymod cfg (pre ++ y :: post) := by
  intro heq
  simp only [polymod, absorbAll_append, absorbAll_cons] at heq
  exact hxy (absorb_injective_right cfg _ (absorbAll_injective h post heq))

theorem lowIndependent_bech32Segwit : lowIndependent bech32Segwit := by
  unfold lowIndependent
  decide

/-- Settles O53: the accumulator step is injective in the accumulator and in the symbol, so a change is never lost. -/
theorem oneSymbolChangesTheChecksum : Obligations.OneSymbolChangesTheChecksum := by
  refine ⟨fun cfg h => ⟨Finite.injective_iff_bijective.mp (absorb_zero_injective h), fun pre post x y hxy =>
    polymod_ne_of_ne h pre post hxy, fun hrp pre post x y hxy hx => ?_⟩, lowIndependent_bech32Segwit⟩
  have hne := polymod_ne_of_ne h (hrpExpand hrp ++ pre) post hxy
  rw [List.append_assoc, List.append_assoc] at hne
  have hres := of_decide_eq_true hx
  exact decide_eq_false fun hy => hne (hres.trans hy.symm)

end Sys2Proof.Machine
end


section
/-! SUPPORT. The host's encoding of a payload and its decoding, call by call (rule R109). -/

namespace Sys2Proof.Machine

/-- What runs and answers `OK` throughout succeeds as a call of the host. -/
theorem Returns.succeeds {cfg : Cfg} {is : List Instr} {s t : State} {rs : List Response} (h : Returns cfg is s t rs)
    (hok : AllOk rs) : succeeds cfg is s t rs :=
  ⟨h.run_supply, h.responses_eq, h.length_eq, hok⟩

/-- A sequence of commands that each write nothing and return a response of the operand alone. -/
theorem returns_map {α : Type} {cfg : Cfg} {cmd : α → Instr} {resp : α → Response}
    (h : ∀ a s, execFor cfg (cmd a) s = answer (resp a) s) (xs : List α) (s : State) :
    ∃ t, Returns cfg (xs.map cmd) s t (xs.map resp) := by
  induction xs generalizing s with
  | nil => exact ⟨s, .nil s⟩
  | cons x xs ih =>
    obtain ⟨t, ht⟩ := ih (s.respond (resp x))
    exact ⟨t, .cons (h x s) rfl ht⟩

theorem allOk_map_ok1 {α : Type} (f : α → Byte) (xs : List α) : AllOk (xs.map fun x => .ok1 (f x)) :=
  List.forall_mem_map.mpr fun _ _ => rfl

theorem execFor_mapS2c_symOperand (cfg : Cfg) (v : Sym) (s : State) :
    execFor cfg (.mapS2c (symOperand v)) s = answer (.ok1 (charOf v)) s := by
  change execMapS2c (symOperand v) s = _
  rw [execMapS2c, symOperand, symbol?_setWidth]

theorem execFor_mapC2s_charOf (cfg : Cfg) (v : Sym) (s : State) :
    execFor cfg (.mapC2s (charOf v)) s = answer (.ok1 (symOperand v)) s :=
  execMapC2s_of_charsetInv (charsetInv_charOf v) s

/-! ### Symbols in responses -/

theorem toNat_symOperand (v : Sym) : (symOperand v).toNat = v.toNat := BitVec.toNat_setWidth_of_le (by decide)

theorem symbolsOf_append (rs qs : List Response) : symbolsOf (rs ++ qs) = symbolsOf rs ++ symbolsOf qs := by
  simp [symbolsOf]

/-- Responses that carry the values of symbols carry those symbols. -/
theorem symbolsOf_eq {rs : List Response} {syms : List Sym} (h : outputsOf rs = syms.map BitVec.toNat) :
    symbolsOf rs = syms := by
  rw [symbolsOf, h, List.map_map]
  exact (List.map_congr_left fun v _ => BitVec.ofNat_toNat 5 v |>.trans (BitVec.setWidth_eq v)).trans (List.map_id syms)

theorem symbolsOf_map_ok1 (syms : List Sym) : symbolsOf (syms.map fun v => .ok1 (symOperand v)) = syms := by
  refine symbolsOf_eq ?_
  rw [outputsOf, List.flatMap_map, List.map_eq_flatMap]
  simp [toNat_symOperand]

/-- The operands made of the symbols of responses have the values the responses carry. -/
theorem toNat_symOperand_symbolsOf {rs : List Response} (h : ∀ x ∈ outputsOf rs, x < 2 ^ 5) :
    ((symbolsOf rs).map symOperand).map BitVec.toNat = outputsOf rs := by
  rw [symbolsOf, List.map_map, List.map_map]
  refine (List.map_congr_left fun x hx => ?_).trans (List.map_id _)
  exact (toNat_symOperand _).trans (Nat.mod_eq_of_lt (h x hx))

theorem length_computeChecksum (cfg : Cfg) (hrp : List Byte) (data : List Sym) :
    (computeChecksum cfg hrp data).length = 6 := rfl

/-- R81: data followed by its checksum verifies. -/
theorem verifyChecksum_computeChecksum (cfg : Cfg) (hrp : List Byte) (data : List Sym) :
    verifyChecksum cfg hrp (data ++ computeChecksum cfg hrp data) = true :=
  (checksumVerifiesExactlyWhenComputed.2 cfg hrp data _ (length_computeChecksum cfg hrp data)).mpr rfl

/-- Settles O54: each call succeeds, and what it returns is the operand list of the next. -/
theorem encodedPayloadDecodes : Obligations.EncodedPayloadDecodes := by
  intro cfg hrp bytes s
  obtain ⟨s1, data, hdata, hdataOk, _, hlt, _, p, hp, hpad⟩ :=
    returns_r85Call cfg (clr := true) bytes (s := s) (.inl rfl)
  obtain ⟨s2, ck, hck, hckOk, _, hckOut⟩ :=
    returns_bchComputeCall cfg (clr := true) hrp (symbolsOf data) (s := s1) (.inl rfl)
  have hall : symbolsOf (data ++ ck) = symbolsOf data ++ computeChecksum cfg hrp (symbolsOf data) := by
    rw [symbolsOf_append, symbolsOf_eq hckOut]
  obtain ⟨s3, hchars⟩ := returns_map (execFor_mapS2c_symOperand cfg) (symbolsOf (data ++ ck)) s2
  obtain ⟨s4, hsyms⟩ := returns_map (execFor_mapC2s_charOf cfg) (symbolsOf (data ++ ck)) s3
  have hback := symbolsOf_map_ok1 (symbolsOf (data ++ ck))
  obtain ⟨s5, verdict, hverdict, hverdictOk, _, hone⟩ := returns_bchVerifyCall cfg (clr := true) hrp
    (syms := symbolsOf (data ++ ck)) (s := s4) (.inl rfl) (by rw [hall]; simp [computeChecksum])
  have hpayloadSyms : (symbolsOf (data ++ ck)).take ((symbolsOf (data ++ ck)).length - 6) = symbolsOf data := by
    rw [hall, List.length_append, length_computeChecksum, Nat.add_sub_cancel, List.take_left']
    rfl
  obtain ⟨s6, payload, hpayload, hpayloadOk, _, hbytes, _⟩ := returns_r58Call_of_convertBits cfg (clr := true)
    (vals := (symbolsOf data).map symOperand) (s := s5) (.inl rfl)
    (toNat_symOperand_symbolsOf hlt ▸ convertBits_padded hlt hp hpad)
  refine ⟨s1, s2, s3, s4, s5, s6, data, ck, _, _, verdict, payload, hdata.succeeds hdataOk, hck.succeeds hckOk,
    hchars.succeeds (allOk_map_ok1 _ _), ?_, hback, ?_, ?_, ?_, hbytes⟩
  · rw [List.map_map]
    exact hsyms.succeeds (allOk_map_ok1 _ _)
  · rw [hback]
    exact hverdict.succeeds hverdictOk
  · rw [hone, hall, verifyChecksum_computeChecksum]
    rfl
  · rw [hback, hpayloadSyms]
    exact hpayload.succeeds hpayloadOk

end Sys2Proof.Machine
end
